-- ==== Sys2Proof/Word.lean ====
section
/-! DEFINITION. The word types of the core and the eight-word group the hash state, the working variables and
the initial hash share (spec 00_scope R10, R13; 30_encoding R96). -/

namespace Sys2Proof

/-- A word: "an unsigned 32-bit integer, the native unit of SHA-256 arithmetic" (R10, R13, R19). -/
abbrev Word := BitVec 32

/-- An octet of a message as the host makes it from a character (R67). -/
abbrev Byte := BitVec 8

/-- Format STATE: eight words in the order a, b, c, d, e, f, g, h; index 0 is a, index 7 is h (R96). -/
structure Eight where
  a : Word
  b : Word
  c : Word
  d : Word
  e : Word
  f : Word
  g : Word
  h : Word
deriving DecidableEq, Repr, Inhabited

end Sys2Proof
end

