-- ==== Sys2Proof/Machine/Constants.lean ====
section
/-! DEFINITION. The constant stores K and H0 (R25, R120 to R126): the literals the core holds, and the root formula
that defines them, in exact integer arithmetic. -/

namespace Sys2Proof.Machine

/-- K[0..63], K[0] first (R121), four words a line as the table of R121 has them. -/
def kTable : List Word :=
  [0x428a2f98#32, 0x71374491#32, 0xb5c0fbcf#32, 0xe9b5dba5#32,
   0x3956c25b#32, 0x59f111f1#32, 0x923f82a4#32, 0xab1c5ed5#32,
   0xd807aa98#32, 0x12835b01#32, 0x243185be#32, 0x550c7dc3#32,
   0x72be5d74#32, 0x80deb1fe#32, 0x9bdc06a7#32, 0xc19bf174#32] ++
  [0xe49b69c1#32, 0xefbe4786#32, 0x0fc19dc6#32, 0x240ca1cc#32,
   0x2de92c6f#32, 0x4a7484aa#32, 0x5cb0a9dc#32, 0x76f988da#32,
   0x983e5152#32, 0xa831c66d#32, 0xb00327c8#32, 0xbf597fc7#32,
   0xc6e00bf3#32, 0xd5a79147#32, 0x06ca6351#32, 0x14292967#32] ++
  [0x27b70a85#32, 0x2e1b2138#32, 0x4d2c6dfc#32, 0x53380d13#32,
   0x650a7354#32, 0x766a0abb#32, 0x81c2c92e#32, 0x92722c85#32,
   0xa2bfe8a1#32, 0xa81a664b#32, 0xc24b8b70#32, 0xc76c51a3#32,
   0xd192e819#32, 0xd6990624#32, 0xf40e3585#32, 0x106aa070#32] ++
  [0x19a4c116#32, 0x1e376c08#32, 0x2748774c#32, 0x34b0bcb5#32,
   0x391c0cb3#32, 0x4ed8aa4a#32, 0x5b9cca4f#32, 0x682e6ff3#32,
   0x748f82ee#32, 0x78a5636f#32, 0x84c87814#32, 0x8cc70208#32,
   0x90befffa#32, 0xa4506ceb#32, 0xbef9a3f7#32, 0xc67178f2#32]

/-- K[t]. There is no K[t] for t above 63 (R62); for such a t ROUND takes a free draw (log 11), and
the 0 here shows in no meaning (DESIGN CHOICE, log 23). -/
def kAt (t : Nat) : Word := kTable.getD t 0#32

/-- H0[0..7] (R123). -/
def h0 : Eight where
  a := 0x6a09e667#32
  b := 0xbb67ae85#32
  c := 0x3c6ef372#32
  d := 0xa54ff53a#32
  e := 0x510e527f#32
  f := 0x9b05688c#32
  g := 0x1f83d9ab#32
  h := 0x5be0cd19#32

/-- Trial division (R124): no divisor between 2 and n - 1. -/
def isPrime (n : Nat) : Bool := 2 ≤ n && (List.range n).all fun d => d < 2 || n % d != 0

/-- The primes below 312 by "a simple ascending scan starting at 2" (R124): there are 64, p_0 = 2 to p_63 = 311. -/
def primes : List Nat := (List.range 312).filter isPrime

/-- The largest r below 2^bits (above the bits already in `r`) with r^k <= n, found bit by bit: the integer k-th root
of R120 and R122. -/
def rootBits (k n : Nat) : Nat → Nat → Nat
  | 0, r => r
  | bits + 1, r => rootBits k n bits (if (r + 2 ^ bits) ^ k ≤ n then r + 2 ^ bits else r)

/-- K[t] = floor(cbrt(p_t * 2^96)) mod 2^32 (R120), for the primes of R124, whose roots are below 2^36 (log 23). -/
def kFormula (p : Nat) : Word := BitVec.ofNat 32 (rootBits 3 (p * 2 ^ 96) 36 0)

/-- H0[i] = floor(sqrt(p_i * 2^64)) mod 2^32 (R122), for the first eight primes, whose roots are below 2^36 (log 23). -/
def h0Formula (p : Nat) : Word := BitVec.ofNat 32 (rootBits 2 (p * 2 ^ 64) 36 0)

end Sys2Proof.Machine
end

