-- ==== Sys2Proof/Machine/Bits.lean ====
section
/-! DEFINITION. Bit strings (R14): lists of bits, index 0 the first bit, and the conversions `be` and `val`. -/

namespace Sys2Proof.Machine

/-- be_n(v): the n-bit string of v, bit n-1 first (R14). -/
def be {n : Nat} (v : BitVec n) : List Bool := (List.range n).map fun i => v.getLsbD (n - 1 - i)

/-- val(s): the number whose most significant bit is s[0] (R14). -/
def val (s : List Bool) : Nat := s.foldl (fun acc b => 2 * acc + b.toNat) 0

end Sys2Proof.Machine
end

