-- ==== Sys2Proof/Config.lean ====
section
/-! DEFINITION. What the spec leaves open, as uninterpreted constants: no proof can see their values.
The constant stores K and H0, which are literals (R25, R121, R123), are in Machine/Constants.lean. -/

namespace Sys2Proof

/-- The value RDDIGEST returns on draw n while DONE = 0: "A free 256-bit draw per read" (93 U2; R209; log 4). -/
opaque Config.freeDigest : Nat → BitVec 256

/-- HS after the reset that made draw n: "a free draw, never zero" (R39, 93 U1; log 3). -/
opaque Config.resetHs : Nat → Eight

/-- WV after the reset that made draw n (R39, 93 U1; log 3). -/
opaque Config.resetWv : Nat → Eight

/-- BLK after the reset that made draw n (R39, 93 U1; log 3). -/
opaque Config.resetBlk : Nat → Vector Word 16

/-- W after the reset that made draw n (R39, 93 U1; log 3). -/
opaque Config.resetW : Nat → Vector Word 64

/-- MSG_LEN after the reset that made draw n (R39, 93 U1; log 3). -/
opaque Config.resetMsgLen : Nat → BitVec 64

/-- POS after the reset that made draw n (R39, 93 U1; log 3). -/
opaque Config.resetPos : Nat → BitVec 64

/-- T after the reset that made draw n: any 7-bit value (R29, R39, 93 U1; log 3). -/
opaque Config.resetT : Nat → BitVec 7

/-- The word read on draw n where the rules name a word that does not exist: W or K outside their indices (R62; log 11). -/
opaque Config.absentWord : Nat → Word

/-- The chunk length on draw n where POS is beyond MSG_LEN; at most 448 of it is taken (R102, R132; log 11). -/
opaque Config.freeChunkLength : Nat → Nat

/-- The chunk's bits on draw n where POS is beyond MSG_LEN (R16; log 11). -/
opaque Config.freeChunkBits : Nat → BitVec 448

end Sys2Proof
end

