-- ==== Sys2Proof/Syntax.lean ====
section
/-! DEFINITION. The operations of the core: one constructor per row of spec/opcode_table.json (R98 to R101). -/

namespace Sys2Proof

/-- The two operation formats (R90): S, a sequencer operation selected by PHASE (R98), and HA, a host access
selected by dir‖reg (R99). -/
inductive Format where
  | s
  | ha
deriving DecidableEq, Repr

/-- Every row of the opcode table. The nine sequencer operations have no operand field: they name their registers
by wiring (R98). A host write carries its data; the data of a CTRL write keeps its ignored bits 31:1 (R32, R203). -/
inductive Instr where
  /-- PHASE code 0 (R202). -/
  | idle
  /-- PHASE code 1 (R204). -/
  | init
  /-- PHASE code 2 (R131). -/
  | pad
  /-- PHASE code 3 (R158). -/
  | wload
  /-- PHASE code 4 (R159). -/
  | wexp
  /-- PHASE code 5 (R177). -/
  | cload
  /-- PHASE code 6 (R178). -/
  | round
  /-- PHASE code 7 (R179). -/
  | feed
  /-- PHASE code 8 (R205). -/
  | done
  /-- Host write of CTRL with data[0] = 1, selector 100 (R203). -/
  | start (data : BitVec 32)
  /-- Host read of STATUS, selector 001 (R208). -/
  | rdstatus
  /-- Host write of MSG_LEN, selector 110 (R206). -/
  | wrlen (data : BitVec 64)
  /-- Host read of MSG_LEN, selector 010 (R207). -/
  | rdlen
  /-- Host read of DIGEST, selector 011 (R209). -/
  | rddigest
deriving DecidableEq, Repr

/-- The format of each operation (R100, R101). -/
def Instr.format : Instr → Format
  | .idle | .init | .pad | .wload | .wexp | .cload | .round | .feed | .done => .s
  | .start _ | .rdstatus | .wrlen _ | .rdlen | .rddigest => .ha

end Sys2Proof
end

