-- ==== Sys2Proof/Machine/State.lean ====
section
/-! DEFINITION. The state of the machine as plain data (R20), the turns its agents take (R12), the reasons a step can
stop, and the state right after reset (R39, R260). -/

namespace Sys2Proof.Machine

/-- The message space MSG (R60, R61) as the octets the host has presented: octet n holds bits 8n to 8n+7, bit 8n its
most significant (R67; log 5). Canonical form: addresses strictly rising, no entry equal to the 00 that an unlisted
octet reads as; `Memory.wf` says so. -/
structure Memory where
  cells : List Host.Cell
deriving DecidableEq, Repr

/-- A host access: "a triple (dir, reg, data)" (R99). `write` is dir; `data` is the value written, its low bits for a
register narrower than 256 bits, and is not looked at on a read (log 14). -/
structure HostAccess where
  write : Bool
  reg   : Nat
  data  : BitVec 256
deriving DecidableEq, Repr

/-- What happens at one step: the model's form of "either agent that has an enabled step may take it" (R12; log 1). -/
inductive Turn where
  /-- SEQ performs the operation PHASE names (R200). -/
  | seq
  /-- HOST makes one register access (R38, R63). -/
  | host (access : HostAccess)
  /-- HOST puts one octet of MSG in place: octet addresses are 61 bits because L is below 2^64 (R61, R262). -/
  | message (octet : BitVec 61) (value : Byte)
  /-- The reset input is applied (R260). -/
  | reset
deriving DecidableEq, Repr

/-- What a host read returned (R207 to R210). -/
inductive Reply where
  /-- The host has read nothing yet (log 7). -/
  | silent
  /-- 32 bits: CTRL, STATUS, or the 0 of a register that does not exist (R105, R208; log 14). -/
  | word (v : BitVec 32)
  /-- 64 bits: MSG_LEN (R207). -/
  | length (v : BitVec 64)
  /-- 256 bits: DIGEST (R209). -/
  | digest (v : BitVec 256)
deriving DecidableEq, Repr

/-- The whole machine. The first eight fields are the core's state of R20; `msg` is the host's MSG (R61); `agenda`,
`reply` and `draws` are the model's own (logs 1, 4, 7). -/
structure State where
  /-- HS[0..7], the hash state (R21). -/
  hs     : Eight
  /-- WV[0..7] = a..h, the working variables (R22). -/
  wv     : Eight
  /-- BLK[0..15], the block (R23). -/
  blk    : Vector Word 16
  /-- W[0..63], the word schedule (R24). -/
  w      : Vector Word 64
  /-- MSG_LEN, the message length L in bits (R27). -/
  msgLen : BitVec 64
  /-- POS, the message bits consumed (R28). -/
  pos    : BitVec 64
  /-- T, the loop index (R29). -/
  t      : BitVec 7
  /-- PHASE, the operation of SEQ's next step (R30). -/
  phase  : BitVec 4
  /-- MSG, the message the host presents (R61). -/
  msg    : Memory
  /-- The turns to come, first first; SEQ moves when it is empty (logs 1, 2). -/
  agenda : List Turn
  /-- The value the last host read returned (log 7). -/
  reply  : Reply
  /-- How many free draws have been made (log 4). -/
  draws  : Nat
deriving DecidableEq, Repr

/-- Why a step stops: there is no reason. "The set of exception causes is empty", and "In a model the step function of SEQ
has no fault outcome" (R230). What the rules leave open in states no run reaches is a free value or no step of SEQ (logs 10,
11). -/
inductive Fault where
deriving DecidableEq, Repr

/-- Runs the model does not admit. -/
inductive Refusal where
  /-- An instruction without a meaning; raised by `exec` alone, and no arm does. Safe. -/
  | notModelled (mnemonic : String)
  /-- A host turn that puts an octet of MSG in place while BUSY = 1: "The model gives the host no step that changes MSG
  during a run" (93 U5, R264; log 6). Raised by `messageTurn`, also where the octet changes no bit of MSG (DESIGN CHOICE, log
  21). Safe, but for a real host that breaks the duty (log 6). -/
  | messageChangedWhileBusy
deriving DecidableEq, Repr

/-- The machine right after reset: PHASE is IDLE and every other register of the core holds a free draw, "never zero"
(R39, R260, 93 U1; log 3). The host has presented no message and no turn is planned. -/
def State.reset : State where
  hs     := Config.resetHs 0
  wv     := Config.resetWv 0
  blk    := Config.resetBlk 0
  w      := Config.resetW 0
  msgLen := Config.resetMsgLen 0
  pos    := Config.resetPos 0
  t      := Config.resetT 0
  phase  := 0#4
  msg    := ⟨[]⟩
  agenda := []
  reply  := .silent
  draws  := 1

end Sys2Proof.Machine
end

