-- ==== Sys2Proof/Machine/Ops.lean ====
section
/-! DEFINITION. The named operations over the message space, the register files and the phase, and the reset event.
There is no exception-taking operation: the core has no exceptions, no trap entry and no return (R230, R235, R236). -/

namespace Sys2Proof

/-! ## STATE groups (R96) -/

/-- Element i of a STATE group: index 0 is a, index 7 is h (R96). -/
def Eight.get (x : Eight) (i : Fin 8) : Word :=
  match i with
  | 0 => x.a
  | 1 => x.b
  | 2 => x.c
  | 3 => x.d
  | 4 => x.e
  | 5 => x.f
  | 6 => x.g
  | 7 => x.h

/-- The eight-fold combination of two STATE groups, one element with the element of the same index. -/
def Eight.zip (f : Word → Word → Word) (x y : Eight) : Eight where
  a := f x.a y.a
  b := f x.b y.b
  c := f x.c y.c
  d := f x.d y.d
  e := f x.e y.e
  f := f x.f y.f
  g := f x.g y.g
  h := f x.h y.h

end Sys2Proof

namespace Sys2Proof.Machine

/-! ## The phase codes (R30) -/

abbrev Phase.idle  : BitVec 4 := 0#4
abbrev Phase.init  : BitVec 4 := 1#4
abbrev Phase.pad   : BitVec 4 := 2#4
abbrev Phase.wload : BitVec 4 := 3#4
abbrev Phase.wexp  : BitVec 4 := 4#4
abbrev Phase.cload : BitVec 4 := 5#4
abbrev Phase.round : BitVec 4 := 6#4
abbrev Phase.feed  : BitVec 4 := 7#4
abbrev Phase.done  : BitVec 4 := 8#4

/-! ## The message space MSG (R61) -/

/-- What an octet of MSG the host has not presented reads as (log 5, DESIGN CHOICE, unsafe). -/
def unlistedOctet : Byte := 0#8

/-- The octet listed at `a`, else `unlistedOctet`. -/
def readCells : List Host.Cell → Nat → Byte
  | [], _ => unlistedOctet
  | (k, v) :: rest, a => if k = a then v else readCells rest a

/-- Put `v` at `a` in a canonical list: the order is kept, and the value an unlisted octet reads as is not listed. -/
def writeCells : List Host.Cell → Nat → Byte → List Host.Cell
  | [], a, v => if v = unlistedOctet then [] else [(a, v)]
  | (k, u) :: rest, a, v =>
    if k < a then (k, u) :: writeCells rest a v
    else
      let tail := if k = a then rest else (k, u) :: rest
      if v = unlistedOctet then tail else (a, v) :: tail

/-- Every address is at least `lo` and below 2^61, addresses strictly rise, and no entry is redundant. -/
def cellsWf : Nat → List Host.Cell → Bool
  | _, [] => true
  | lo, (k, v) :: rest => decide (lo ≤ k) && decide (k < 2 ^ 61) && decide (v ≠ unlistedOctet) && cellsWf (k + 1) rest

/-- One octet of MSG. -/
def Memory.read (m : Memory) (a : Nat) : Byte := readCells m.cells a

/-- MSG with one octet replaced. -/
def Memory.write (m : Memory) (a : Nat) (v : Byte) : Memory := ⟨writeCells m.cells a v⟩

/-- The canonical form (log 5). -/
def Memory.wf (m : Memory) : Bool := cellsWf 0 m.cells

/-- MSG[i]: bits enter MSG "most significant first", MSG[8n + k] = v[7-k] (R61, R67). It answers for every i; the spec has no
bit MSG[i] for i >= L (DESIGN CHOICE, log 22). -/
def Memory.bit (m : Memory) (i : Nat) : Bool := (m.read (i / 8)).getLsbD (7 - i % 8)

/-- MemRead(MSG, addr, n): MSG[addr], ..., MSG[addr+n-1], first bit first (R16). -/
def Memory.memRead (m : Memory) (addr n : Nat) : List Bool := (List.range n).map fun k => m.bit (addr + k)

/-! ## The word stores (R60, R62) -/

/-- Word i of a store. There is none for i >= n (R62): for such an i a meaning takes a free draw (log 11),
and the 0 here shows in no meaning (DESIGN CHOICE, log 23). -/
def storeRead {n : Nat} (xs : Vector Word n) (i : Nat) : Word := if h : i < n then xs[i] else 0#32

/-- A store with word i replaced. For i >= n there is no such word (R62) and the store is kept (DESIGN
CHOICE, logs 11, 23). -/
def storeWrite {n : Nat} (xs : Vector Word n) (i : Nat) (x : Word) : Vector Word n :=
  if h : i < n then xs.set i x h else xs

/-! ## The reset event (R260) -/

/-- "In one atomic step: PHASE <- IDLE", and every other register of the core becomes unspecified, a new free draw
(R260, R261, 93 U8; log 3). MSG, the turns to come and what the host has read are not the core's (log 15). -/
def applyReset (s : State) : State :=
  { s with
    hs     := Config.resetHs s.draws
    wv     := Config.resetWv s.draws
    blk    := Config.resetBlk s.draws
    w      := Config.resetW s.draws
    msgLen := Config.resetMsgLen s.draws
    pos    := Config.resetPos s.draws
    t      := Config.resetT s.draws
    phase  := Phase.idle
    draws  := s.draws + 1 }

end Sys2Proof.Machine
end

