-- ==== Sys2Proof/Machine/Datapath.lean ====
section
/-! DEFINITION. The combinational functions every unit shares (42_scheduler R150 to R156) and the round functions of
the compression engine (43_compression R170 to R175, R183). -/

namespace Sys2Proof.Machine

/-- ADD32(x, y) = (x + y) mod 2^32, the carry dropped (R150). -/
def add32 (x y : Word) : Word := x + y

/-- ROTR(x, n): "Bit i of the result is bit (i + n) mod 32 of x" (R151), for 0 < n < 32. DESIGN CHOICE: the spec defines no
other amount and no operation uses one; here the amount counts modulo 32 (log 19). -/
def rotr (x : Word) (n : Nat) : Word := x.rotateRight n

/-- SHR(x, n) = floor(x / 2^n) (R152), for 0 < n < 32. DESIGN CHOICE: the spec defines no other amount and no operation uses
one; here the same formula stands for every n, so 32 and over give 0 (log 19). -/
def shr (x : Word) (n : Nat) : Word := x >>> n

/-- σ0 (R154). -/
def smallSigma0 (x : Word) : Word := rotr x 7 ^^^ rotr x 18 ^^^ shr x 3

/-- σ1 (R155). -/
def smallSigma1 (x : Word) : Word := rotr x 17 ^^^ rotr x 19 ^^^ shr x 10

/-- S1 (R170). -/
def bigSigma1 (x : Word) : Word := rotr x 6 ^^^ rotr x 11 ^^^ rotr x 25

/-- S0 (R172). -/
def bigSigma0 (x : Word) : Word := rotr x 2 ^^^ rotr x 13 ^^^ rotr x 22

/-- Ch(x, y, z) = (x ∧ y) ⊕ (¬x ∧ z) (R171). -/
def ch (x y z : Word) : Word := (x &&& y) ^^^ (~~~x &&& z)

/-- Maj(x, y, z) = (x ∧ y) ⊕ (x ∧ z) ⊕ (y ∧ z) (R173). -/
def maj (x y z : Word) : Word := (x &&& y) ^^^ (x &&& z) ^^^ (y &&& z)

/-- T1 = ADD32(h, S1(e), Ch(e, f, g), K[T], W[T]) (R174, R156). -/
def temp1 (v : Eight) (k x : Word) : Word :=
  add32 (add32 (add32 (add32 v.h (bigSigma1 v.e)) (ch v.e v.f v.g)) k) x

/-- T2 = ADD32(S0(a), Maj(a, b, c)) (R175). -/
def temp2 (v : Eight) : Word := add32 (bigSigma0 v.a) (maj v.a v.b v.c)

/-- round((a,b,c,d,e,f,g,h), k, x): a simultaneous assignment (R178, R183). -/
def roundWords (v : Eight) (k x : Word) : Eight where
  a := add32 (temp1 v k x) (temp2 v)
  b := v.a
  c := v.b
  d := v.c
  e := add32 v.d (temp1 v k x)
  f := v.e
  g := v.f
  h := v.g

end Sys2Proof.Machine
end

