-- ==== Sys2Proof/Machine/Operands.lean ====
section
/-! DEFINITION. Operand assembly (30_encoding R102): the chunk, the data field, the block and its words, the schedule
recurrence's operands, and the digest. -/

namespace Sys2Proof.Machine

/-- CHUNK_BITS (R10). -/
def chunkBits : Nat := 448

/-- c = min(448, L - POS), the chunk length, on naturals, for POS up to L (R102, R131, R132); 0 beyond (DESIGN CHOICE, log 23;
PAD takes a free chunk there, log 11). -/
def chunkLength (len pos : Nat) : Nat := min chunkBits (len - pos)

/-- The data field: "if c < 448 then chunk ‖ 1 ‖ 0^(447 - c) else chunk", c the length of the chunk (R92, R131, R133). -/
def dataField (chunk : List Bool) : List Bool :=
  if chunk.length < chunkBits then chunk ++ [true] ++ List.replicate (chunkBits - 1 - chunk.length) false else chunk

/-- The block B = data ‖ be_64(L), 512 bits (R131, R134). -/
def blockOf (chunk : List Bool) (len : BitVec 64) : List Bool := dataField chunk ++ be len

/-- The padder's block for the message bits from `pos` on, `pos` at most L (R131); beyond L, an empty chunk's (DESIGN CHOICE,
log 23). -/
def blockBits (m : Memory) (len : BitVec 64) (pos : Nat) : List Bool :=
  blockOf (m.memRead pos (chunkLength len.toNat pos)) len

/-- A chunk of a free length up to 448 and free bits, on draw n (R102; log 11). -/
def freeChunk (n : Nat) : List Bool := (be (Config.freeChunkBits n)).take (Config.freeChunkLength n)

/-- The chunk PAD takes: c message bits from POS (R131, R132). With POS beyond L, where L - POS is no number and MemRead is not
defined (R16), a free chunk (log 11). -/
def padChunk (m : Memory) (len pos : BitVec 64) (draw : Nat) : List Bool :=
  if len.toNat < pos.toNat then freeChunk draw else m.memRead pos.toNat (chunkLength len.toNat pos.toNat)

/-- val(B[32i .. 32i+31]), word i of a block (R64, R93, R135). -/
def wordOfBits (bits : List Bool) (i : Nat) : Word := BitVec.ofNat 32 (val ((bits.drop (32 * i)).take 32))

/-- The sixteen words of a block (R64). -/
def blockWords (bits : List Bool) : Vector Word 16 := Vector.ofFn fun i => wordOfBits bits i.val

/-- The recurrence's value for W[t]: ADD32(W[t-16], σ0(W[t-15]), W[t-7], σ1(W[t-2])) for 16 <= t <= 63 (R159); for
other t, what the truncated indexes and the absent words' 0 give (DESIGN CHOICE, log 23; WEXP does not use it, log 11). -/
def scheduleWord (w : Vector Word 64) (t : Nat) : Word :=
  add32 (add32 (add32 (storeRead w (t - 16)) (smallSigma0 (storeRead w (t - 15)))) (storeRead w (t - 7)))
    (smallSigma1 (storeRead w (t - 2)))

/-- What WEXP writes to W[T]. With T below 16 the recurrence names words that do not exist (R62), and the sum is a free word
(log 11). With T above 63 there is no W[T] to write. -/
def wexpWord (w : Vector Word 64) (t draw : Nat) : Word := if t < 16 then Config.absentWord draw else scheduleWord w t

/-- W[0..15] <- BLK[0..15], W[16..63] kept (R158). -/
def loadBlock (blk : Vector Word 16) (w : Vector Word 64) : Vector Word 64 :=
  Vector.ofFn fun i => if i.val < 16 then storeRead blk i.val else storeRead w i.val

/-- The feed-forward: ADD32(HS[i], WV[i]) for i = 0..7, "never crosswise" (R179). -/
def feedForward (hs wv : Eight) : Eight := Eight.zip add32 hs wv

/-- DIGEST = be_32(HS[0]) ‖ ... ‖ be_32(HS[7]), HS[0] its most significant word (R33, R66, R182). -/
def digestOf (hs : Eight) : BitVec 256 := hs.a ++ hs.b ++ hs.c ++ hs.d ++ hs.e ++ hs.f ++ hs.g ++ hs.h

end Sys2Proof.Machine
end

