-- ==== Sys2Proof/Machine/Flags.lean ====
section
/-! DEFINITION. The status bits: functions of PHASE (R31). The core has no arithmetic flags (R35). -/

namespace Sys2Proof.Machine

/-- STATUS.BUSY: PHASE is one of INIT to FEED, codes 1 to 7 (R31). -/
def busyOf (phase : BitVec 4) : Bool := decide (1 ≤ phase.toNat) && decide (phase.toNat ≤ 7)

/-- STATUS.DONE: PHASE is DONE, code 8 (R31). -/
def doneOf (phase : BitVec 4) : Bool := decide (phase = Phase.done)

def State.busy (s : State) : Bool := busyOf s.phase

/-- STATUS.DONE, and the output `done`, "a level that is 1 exactly when STATUS.DONE = 1" (R31, R233). -/
def State.isDone (s : State) : Bool := doneOf s.phase

/-- PHASE is IDLE or DONE: a START or WRLEN is accepted (R203, R206). Not the same as BUSY = 0 in the reserved codes,
where both are dropped (93 U4). -/
def State.accepts (s : State) : Bool := decide (s.phase = Phase.idle) || decide (s.phase = Phase.done)

/-- STATUS as read: bit 0 BUSY, bit 1 DONE, bits 31:2 zero (R31, R208). -/
def State.status (s : State) : BitVec 32 :=
  BitVec.ofNat 32 ((if s.busy then 1 else 0) + (if s.isDone then 2 else 0))

/-- The DIGEST view of HS (R33). -/
def State.digest (s : State) : BitVec 256 := digestOf s.hs

end Sys2Proof.Machine
end

