-- ==== Sys2Proof/Machine/Compression.lean ====
section
/-! DEFINITION. The compression engine's operations CLOAD, ROUND and FEED (43_compression R176 to R184). -/

namespace Sys2Proof.Machine

/-- CLOAD: WV[i] <- HS[i], T <- 0, PHASE <- ROUND (R177). -/
def execCload (s : State) : Host.Outcome State Fault Refusal :=
  .next { s with wv := s.hs, t := 0#7, phase := Phase.round }

/-- ROUND's next state: one round with K[T] and W[T], T <- T + 1, PHASE <- FEED if T was 63, else ROUND (R178). With T above
63, which no run reaches (R40), K[T] and W[T] do not exist (R62), and the round runs on two free draws (log 11). -/
def roundNext (s : State) : State :=
  { s with
    wv    := if 63 < s.t.toNat then roundWords s.wv (Config.absentWord s.draws) (Config.absentWord (s.draws + 1))
             else roundWords s.wv (kAt s.t.toNat) (storeRead s.w s.t.toNat)
    t     := s.t + 1#7
    phase := if s.t.toNat = 63 then Phase.feed else Phase.round
    draws := if 63 < s.t.toNat then s.draws + 2 else s.draws }

/-- ROUND (R178). "No failure modes" (R184). -/
def execRound (s : State) : Host.Outcome State Fault Refusal := .next (roundNext s)

/-- FEED's next state: HS[i] <- ADD32(HS[i], WV[i]); PHASE <- PAD if POS < MSG_LEN, else DONE (R179, R180). -/
def feedNext (s : State) : State :=
  { s with
    hs    := feedForward s.hs s.wv
    phase := if s.pos.toNat < s.msgLen.toNat then Phase.pad else Phase.done }

/-- FEED (R179). -/
def execFeed (s : State) : Host.Outcome State Fault Refusal := .next (feedNext s)

end Sys2Proof.Machine
end

