-- ==== Sys2Proof/WellFormed.lean ====
section
/-! DEFINITION. Which terms of `Instr` are operations of the table. -/

namespace Sys2Proof

/-- A START has data[0] = 1: a CTRL write with data[0] = 0 is the no-op of R105, not a START (R32, R101, R203).
Every other operand value is legal: "Every 64-bit value is legal" for WRLEN (R206), and CTRL's bits 31:1 are
ignored (R32). -/
def Instr.wellFormed : Instr → Bool
  | .start data => data.getLsbD 0
  | .idle | .init | .pad | .wload | .wexp | .cload | .round | .feed | .done => true
  | .rdstatus | .wrlen _ | .rdlen | .rddigest => true

end Sys2Proof
end

