-- ==== Sys2Proof/Decode.lean ====
section
/-! DEFINITION. The decoders of formats S and HA (R98 to R101), total, rejecting by name (R104, R105); the encoder;
and the table's numbering of an operation's bits. -/

namespace Sys2Proof

/-- Why a code or access is no row of the opcode table. -/
inductive DecodeError where
  /-- PHASE codes 9 to 15 (R104). -/
  | reservedPhase
  /-- Selector 000, a read of CTRL (R105). -/
  | ctrlRead
  /-- Selector 100 with data[0] = 0, the no-op write of CTRL (R101, R105). -/
  | ctrlWriteWithoutStart
  /-- Selector 101, a write of STATUS (R105). -/
  | statusWrite
  /-- Selector 111, a write of DIGEST (R105). -/
  | digestWrite
  /-- A register number above 3 (R63, R105). -/
  | absentRegister
  /-- A byte list that ends before the operation does. -/
  | truncated
deriving DecidableEq, Repr

/-- Format S: "mask 0xF, match the code" (R98, R100). -/
def decodeS (phase : BitVec 4) : Except DecodeError Instr :=
  match phase.toNat with
  | 0 => .ok .idle
  | 1 => .ok .init
  | 2 => .ok .pad
  | 3 => .ok .wload
  | 4 => .ok .wexp
  | 5 => .ok .cload
  | 6 => .ok .round
  | 7 => .ok .feed
  | 8 => .ok .done
  | _ => .error .reservedPhase

/-- Format HA: the selector dir‖reg and the data written (R99, R101). `data` is as wide as the widest register;
a narrower register takes its low bits (log 14). -/
def decodeHA (sel : BitVec 3) (data : BitVec 256) : Except DecodeError Instr :=
  match sel.toNat with
  | 0 => .error .ctrlRead
  | 1 => .ok .rdstatus
  | 2 => .ok .rdlen
  | 3 => .ok .rddigest
  | 4 => if data.getLsbD 0 then .ok (.start (data.setWidth 32)) else .error .ctrlWriteWithoutStart
  | 5 => .error .statusWrite
  | 6 => .ok (.wrlen (data.setWidth 64))
  | _ => .error .digestWrite

/-- A host access as the host presents it: "a triple (dir, reg, data)" (R99). `write` is dir. A register number
above 3 can be named and does not exist (R63). -/
def decodeAccess (write : Bool) (reg : Nat) (data : BitVec 256) : Except DecodeError Instr :=
  if reg < 4 then decodeHA (BitVec.ofNat 3 ((if write then 4 else 0) + reg)) data else .error .absentRegister

/-- The value of a list of bytes, the first byte least significant: the table's numbering (log 8). -/
def leValue : List Byte → Nat
  | [] => 0
  | b :: bs => b.toNat + 256 * leValue bs

/-- `n` bytes of `v`, least significant first (log 8). -/
def leBytes : Nat → Nat → List Byte
  | 0, _ => []
  | n + 1, v => BitVec.ofNat 8 v :: leBytes n (v / 256)

/-- How many data bytes follow the selector of a host access: CTRL is 32 bits, MSG_LEN 64; a read carries none, and
neither does a write that is dropped whatever its data (R63, R99, log 8). -/
def dataBytes (sel : BitVec 3) : Nat :=
  match sel.toNat with
  | 4 => 4
  | 6 => 8
  | _ => 0

/-- An operation laid out in bytes. Format S: one byte whose low four bits are the code. Format HA: one byte whose
low three bits are the selector, then the data, least significant byte first. The bits of the first byte above the
code are outside the table's mask and are not looked at (R98; log 8). Answers the operation and the bytes after it. -/
def decode (f : Format) (bytes : List Byte) : Except DecodeError (Instr × List Byte) :=
  match bytes with
  | [] => .error .truncated
  | b :: rest =>
    match f with
    | .s => (decodeS (b.setWidth 4)).map fun i => (i, rest)
    | .ha =>
      let n := dataBytes (b.setWidth 3)
      if rest.length < n then .error .truncated
      else (decodeHA (b.setWidth 3) (BitVec.ofNat 256 (leValue (rest.take n)))).map fun i => (i, rest.drop n)

/-- The code or selector of each operation, from the tables of R100 and R101. -/
def Instr.code : Instr → Nat
  | .idle => 0
  | .init => 1
  | .pad => 2
  | .wload => 3
  | .wexp => 4
  | .cload => 5
  | .round => 6
  | .feed => 7
  | .done => 8
  | .start _ => 4
  | .rdstatus => 1
  | .wrlen _ => 6
  | .rdlen => 2
  | .rddigest => 3

/-- The bytes of an operation: its code or selector, then the data it writes (R98, R99; log 8). -/
def encode (i : Instr) : List Byte :=
  BitVec.ofNat 8 i.code ::
    match i with
    | .start data => leBytes 4 data.toNat
    | .wrlen data => leBytes 8 data.toNat
    | .idle | .init | .pad | .wload | .wexp | .cload | .round | .feed | .done => []
    | .rdstatus | .rdlen | .rddigest => []

/-- The format of a table word of `nbits` bits. The table gives a format S row 4 bits and a format HA row 3, and both
fill one byte, in which their codes overlap: one byte is read as a PHASE code; 3 bits, or more than one byte, as a
host access with its data (log 8). -/
def tableFormat (nbits : Nat) : Format :=
  if nbits = 3 then .ha else if nbits ≤ 8 then .s else .ha

/-- The operation the decoder reads from the table word `w`: its bytes, least significant first, zeros above. -/
def decodeTableWord (nbits w : Nat) : Option Instr :=
  match decode (tableFormat nbits) (leBytes 33 w) with
  | .ok (i, _) => some i
  | .error _ => none

end Sys2Proof
end

