-- ==== Sys2Proof/Machine/HostPort.lean ====
section
/-! DEFINITION. The host's accesses (44_sequencer_host R203, R206 to R210, R213) and the reserved ones (30_encoding
R105). None raises anything (R232). -/

namespace Sys2Proof.Machine

/-- START: PHASE <- INIT when PHASE is IDLE or DONE, else nothing (R203, R212, R213). Bits 31:1 of the data are
ignored (R32); with data[0] = 0 the write is the no-op of R105. -/
def execStart (data : BitVec 32) (s : State) : Host.Outcome State Fault Refusal :=
  .next (if data.getLsbD 0 && s.accepts then { s with phase := Phase.init } else s)

/-- RDSTATUS: returns BUSY and DONE, "computed from PHASE at the moment of the read"; no side effect (R208). -/
def execRdstatus (s : State) : Host.Outcome State Fault Refusal := .next { s with reply := .word s.status }

/-- WRLEN: MSG_LEN <- data when PHASE is IDLE or DONE; while BUSY "the write is dropped, not queued" (R206). -/
def execWrlen (data : BitVec 64) (s : State) : Host.Outcome State Fault Refusal :=
  .next (if s.accepts then { s with msgLen := data } else s)

/-- RDLEN: returns the current value of MSG_LEN (R207). -/
def execRdlen (s : State) : Host.Outcome State Fault Refusal := .next { s with reply := .length s.msgLen }

/-- RDDIGEST: in DONE the 256 bits of HS; otherwise a free draw, "NOT the current HS" (R209, 93 U2; log 4). -/
def execRddigest (s : State) : Host.Outcome State Fault Refusal :=
  .next (if s.isDone then { s with reply := .digest s.digest }
    else { s with reply := .digest (Config.freeDigest s.draws), draws := s.draws + 1 })

/-- A reserved access: a write has no effect, a read returns 0 and has no other effect (R105, R210). -/
def reservedAccess (access : HostAccess) (s : State) : Host.Outcome State Fault Refusal :=
  .next (if access.write then s else { s with reply := .word 0#32 })

end Sys2Proof.Machine
end

