-- ==== Sys2Proof/Machine/Padder.lean ====
section
/-! DEFINITION. The message padder's operation PAD (41_padder R131 to R142). -/

namespace Sys2Proof.Machine

/-- PAD's next state: BLK <- the block of the chunk at POS, POS <- POS + c, PHASE <- WLOAD (R131). With POS beyond MSG_LEN,
which no run reaches (R40), the chunk is a free draw (log 11). -/
def padNext (s : State) : State :=
  let chunk := padChunk s.msg s.msgLen s.pos s.draws
  { s with
    blk   := blockWords (blockOf chunk s.msgLen)
    pos   := s.pos + BitVec.ofNat 64 chunk.length
    phase := Phase.wload
    draws := if s.msgLen.toNat < s.pos.toNat then s.draws + 1 else s.draws }

/-- PAD (R131). "PAD never faults, never stalls and never refuses an input" (R142). -/
def execPad (s : State) : Host.Outcome State Fault Refusal := .next (padNext s)

end Sys2Proof.Machine
end

