-- ==== Sys2Proof/Machine/Scheduler.lean ====
section
/-! DEFINITION. The word scheduler's operations WLOAD and WEXP (42_scheduler R157 to R161). -/

namespace Sys2Proof.Machine

/-- WLOAD: W[i] <- BLK[i] for i = 0..15, T <- 16, PHASE <- WEXP; W[16..63] keep what they held (R158). -/
def execWload (s : State) : Host.Outcome State Fault Refusal :=
  .next { s with w := loadBlock s.blk s.w, t := 16#7, phase := Phase.wexp }

/-- WEXP's next state: W[T] <- the recurrence, T <- T + 1, PHASE <- CLOAD if T was 63, else WEXP (R159). With T below 16,
which no run reaches (R40), the word is a free draw; with T above 63 there is no W[T] and nothing is written (R62; log 11). -/
def wexpNext (s : State) : State :=
  { s with
    w     := storeWrite s.w s.t.toNat (wexpWord s.w s.t.toNat s.draws)
    t     := s.t + 1#7
    phase := if s.t.toNat = 63 then Phase.cload else Phase.wexp
    draws := if s.t.toNat < 16 then s.draws + 1 else s.draws }

/-- WEXP (R159). "No failure modes." -/
def execWexp (s : State) : Host.Outcome State Fault Refusal := .next (wexpNext s)

end Sys2Proof.Machine
end

