-- ==== Sys2Proof/Machine/Sequencer.lean ====
section
/-! DEFINITION. The sequencer's own operations IDLE, INIT and DONE (44_sequencer_host R202, R204, R205). -/

namespace Sys2Proof.Machine

/-- IDLE: "SEQ has no enabled step and changes nothing"; a wait the host lifts (R202; log 13). -/
def execIdle (s : State) : Host.Outcome State Fault Refusal := .next s

/-- INIT: HS[i] <- H0[i], POS <- 0, PHASE <- PAD (R204). -/
def execInit (s : State) : Host.Outcome State Fault Refusal :=
  .next { s with hs := h0, pos := 0#64, phase := Phase.pad }

/-- DONE: "SEQ has no enabled step and changes nothing"; HS holds the final hash state (R205; log 13). -/
def execDone (s : State) : Host.Outcome State Fault Refusal := .next s

end Sys2Proof.Machine
end

