-- ==== Sys2Proof/Machine/Dispatch.lean ====
section
/-! DEFINITION. The dispatch of every operation of the table to its meaning. -/

namespace Sys2Proof.Machine

def exec (i : Instr) (s : State) : Host.Outcome State Fault Refusal :=
  match i with
  | .idle => Sys2Proof.Machine.execIdle s
  | .init => Sys2Proof.Machine.execInit s
  | .pad => Sys2Proof.Machine.execPad s
  | .wload => Sys2Proof.Machine.execWload s
  | .wexp => Sys2Proof.Machine.execWexp s
  | .cload => Sys2Proof.Machine.execCload s
  | .round => Sys2Proof.Machine.execRound s
  | .feed => Sys2Proof.Machine.execFeed s
  | .done => Sys2Proof.Machine.execDone s
  | .start data => Sys2Proof.Machine.execStart data s
  | .rdstatus => Sys2Proof.Machine.execRdstatus s
  | .wrlen data => Sys2Proof.Machine.execWrlen data s
  | .rdlen => Sys2Proof.Machine.execRdlen s
  | .rddigest => Sys2Proof.Machine.execRddigest s

end Sys2Proof.Machine
end

