-- ==== Sys2Proof/Machine/Agents.lean ====
section
/-! DEFINITION. The turns of the two agents and of the reset input (R12, R200, R260, R264). -/

namespace Sys2Proof.Machine

/-- The turn that comes next, and the state with it taken from the agenda. With nothing planned SEQ moves: "weak
fairness of SEQ" (R269; log 2). -/
def takeTurn (s : State) : Turn × State :=
  match s.agenda with
  | [] => (.seq, s)
  | turn :: rest => (turn, { s with agenda := rest })

/-- SEQ's turn: the operation PHASE names (R98, R200). With a reserved code SEQ has no
step, and its turn changes nothing: stuck, until a reset (R104, 93 U4; log 10). -/
def seqTurn (s : State) : Host.Outcome State Fault Refusal :=
  match decodeS s.phase with
  | .ok i => exec i s
  | .error _ => .next s

/-- HOST's register access: the operation its selector names, or a reserved access (R101, R105). -/
def hostTurn (access : HostAccess) (s : State) : Host.Outcome State Fault Refusal :=
  match decodeAccess access.write access.reg access.data with
  | .ok i => exec i s
  | .error _ => reservedAccess access s

/-- HOST puts one octet of MSG in place; while BUSY it must not change a bit of MSG (R264, 93 U5; log 6). DESIGN CHOICE:
while BUSY every such turn is refused, also one that puts the same octet again or an octet wholly at or beyond bit L, which
change no bit of MSG (log 21). -/
def messageTurn (octet : BitVec 61) (value : Byte) (s : State) : Host.Outcome State Fault Refusal :=
  if s.busy then .refused .messageChangedWhileBusy
  else .next { s with msg := s.msg.write octet.toNat value }

/-- One turn. -/
def runTurn (turn : Turn) (s : State) : Host.Outcome State Fault Refusal :=
  match turn with
  | .seq => seqTurn s
  | .host access => hostTurn access s
  | .message octet value => messageTurn octet value s
  | .reset => .next (applyReset s)

/-- The host access a format HA table word stands for: its selector dir‖reg, and its data above the selector's byte
(R99; logs 8, 14). -/
def accessOfTableWord (w : Nat) : HostAccess where
  write := w.testBit 2
  reg   := w % 4
  data  := BitVec.ofNat 256 (w / 256)

/-- The state in which SEQ's next step is the operation of PHASE code `code`. PHASE, T and POS together are "the pc"
(R34): WEXP and ROUND get the first index at which they run, PAD the start of the message; the rest keeps its value
(log 9). -/
def positionAt (code : BitVec 4) (s : State) : State :=
  { s with
    phase := code
    t     := if code = Phase.wexp then 16#7 else if code = Phase.round then 0#7 else s.t
    pos   := if code = Phase.pad then 0#64 else s.pos }

end Sys2Proof.Machine
end

