-- ==== Sys2Proof/Machine/Step.lean ====
section
/-! DEFINITION. One step of the machine, and the placing of an operation where the next step takes it from. -/

namespace Sys2Proof.Machine

/-- One atomic step by one agent (R12, R18). -/
def step (s : State) : Host.Outcome State Fault Refusal := runTurn (takeTurn s).1 (takeTurn s).2

/-- The next step is the operation of the table word `w` of `nbits` bits. A format S word goes into PHASE and SEQ has
the next turn; a format HA word becomes the host's next access (logs 8, 9). -/
def State.withFetchWord (s : State) (nbits w : Nat) : State :=
  match tableFormat nbits with
  | .s => { positionAt (BitVec.ofNat 4 w) s with agenda := .seq :: s.agenda }
  | .ha => { s with agenda := .host (accessOfTableWord w) :: s.agenda }

end Sys2Proof.Machine
end

