-- ==== Sys2Proof/Machine/ClosedForms.lean ====
section
/-! DEFINITION. The spec's closed forms, pure functions for claims to compare the machine with: pad_block and N
(R137, R143), expand (R160), process_block (R183), core_digest (R185), and the step count (R267). What they answer outside
the ranges the rules give is the model's (log 23). -/

namespace Sys2Proof.Machine

/-- N = max(1, ceil(L / 448)) (R137). -/
def numBlocks (len : BitVec 64) : Nat := max 1 ((len.toNat + 447) / 448)

/-- words(pad_block(MSG, L, j)): the sixteen words of block j, for j in 0 .. N-1 (R143). DESIGN CHOICE: for j >= N, where the
spec has no block, L - 448 j is 0 and the block is an empty chunk's: the marker, zeros and L (log 23). -/
def padBlock (m : Memory) (len : BitVec 64) (j : Nat) : Vector Word 16 := blockWords (blockBits m len (448 * j))

/-- pad(MSG, L): all N blocks in input order (R139, R143). -/
def padAll (m : Memory) (len : BitVec 64) : List (Vector Word 16) :=
  (List.range (numBlocks len)).map (padBlock m len)

/-- The first n derived words of the schedule put in place, in the order t = 16, 17, ..., for n up to 48 (R160); a word past
W[63] is not put anywhere (DESIGN CHOICE, log 23). -/
def expandFrom (w : Vector Word 64) : Nat → Vector Word 64
  | 0 => w
  | n + 1 => storeWrite (expandFrom w n) (16 + n) (scheduleWord (expandFrom w n) (16 + n))

/-- expand(b) = w[0..63] (R160). -/
def expand (b : Vector Word 16) : Vector Word 64 := expandFrom (loadBlock b (Vector.replicate 64 0#32)) 48

/-- v_t: the working variables after t rounds from v_0 = s, for t up to 64 (R183); a round past t = 63 takes 0 for K[t] and
W[t], which do not exist (DESIGN CHOICE, log 23). -/
def roundsFrom (s : Eight) (w : Vector Word 64) : Nat → Eight
  | 0 => s
  | t + 1 => roundWords (roundsFrom s w t) (kAt t) (storeRead w t)

/-- process_block(s, w) (R183). -/
def processBlock (s : Eight) (w : Vector Word 64) : Eight := feedForward s (roundsFrom s w 64)

/-- s_j: the hash state after j blocks, s_0 = H0, for j up to N (R185); beyond N it goes on over the blocks `padBlock` answers
there (DESIGN CHOICE, log 23). -/
def chainState (m : Memory) (len : BitVec 64) : Nat → Eight
  | 0 => h0
  | j + 1 => processBlock (chainState m len j) (expand (padBlock m len j))

/-- core_digest(MSG, L) (R185). -/
def coreDigest (m : Memory) (len : BitVec 64) : BitVec 256 := digestOf (chainState m len (numBlocks len))

/-- The SEQ steps of a run: 1 + 116 N (R215, R267). -/
def runLength (len : BitVec 64) : Nat := 1 + 116 * numBlocks len

end Sys2Proof.Machine
end

