-- ==== Sys2Proof/Machine/FrontEnd.lean ====
section
/-! DEFINITION. The host's front end, outside the core but written down by the spec (R7): text to message (R216), digest
to text (R217), and the composed function (R218). A text is its list of code points (93 U10; log 18). -/

namespace Sys2Proof.Machine

/-- "each character is mapped to its code point if <128, else substituted with 0x3F" (R216). -/
def charOctet (u : Nat) : Byte := if u < 128 then BitVec.ofNat 8 u else 0x3F#8

/-- The octets placed from octet address `a` on. -/
def placeOctets (m : Memory) (a : Nat) : List Byte → Memory
  | [] => m
  | v :: vs => placeOctets (m.write a v) (a + 1) vs

/-- MSG = be_8(v_0) ‖ be_8(v_1) ‖ ... (R216). -/
def textMessage (text : List Nat) : Memory := placeOctets ⟨[]⟩ 0 (text.map charOctet)

/-- L = 8 * n (R216), for a text that fits the 64-bit length. For 2^61 characters or more, which cannot be presented (R142,
93 U6), this is 8 * n modulo 2^64: DESIGN CHOICE, no rule gives such a length, and `sha256Text` does not use it (log 20). -/
def textLength (text : List Nat) : BitVec 64 := BitVec.ofNat 64 (8 * text.length)

/-- The hexadecimal digit of a value below 16, in 0123456789abcdef (R66); '0' for any other (DESIGN CHOICE, log 23). -/
def hexDigit (v : Nat) : Char :=
  (['0', '1', '2', '3', '4', '5', '6', '7', '8', '9', 'a', 'b', 'c', 'd', 'e', 'f'] : List Char).getD v '0'

/-- The digest's 64 characters, most significant digit first (R66, R217). -/
def hexText (digest : BitVec 256) : List Char :=
  (List.range 64).map fun i => hexDigit (digest.toNat / 16 ^ (63 - i) % 16)

/-- sha256(text) = hex(core_digest(MSG, L)) (R218). A text of 2^64 bits or more has none: it cannot be expressed (93 U6,
treatment `refuse`; log 20). -/
def sha256Text (text : List Nat) : Option (List Char) :=
  if 8 * text.length < 2 ^ 64 then some (hexText (coreDigest (textMessage text) (textLength text))) else none

end Sys2Proof.Machine
end

