-- ==== Sys2Proof/Safety.lean ====
section
/-! DEFINITION. The terms claims use: the fields a step may leave unchanged, the invariants of R40, and the premises of
a run (R262, R264, R141). -/

namespace Sys2Proof.Safety

open Sys2Proof.Machine

/-! ## Frames -/

/-- The fields of State, one by one. -/
inductive Field where
  | hs
  | wv
  | blk
  | w
  | msgLen
  | pos
  | t
  | phase
  | msg
  | agenda
  | reply
  | draws
deriving DecidableEq, Repr

/-- The field holds the same value in both states. MSG is the same when every octet of it reads the same. -/
def Field.same (f : Field) (s u : State) : Prop :=
  match f with
  | .hs => u.hs = s.hs
  | .wv => u.wv = s.wv
  | .blk => u.blk = s.blk
  | .w => u.w = s.w
  | .msgLen => u.msgLen = s.msgLen
  | .pos => u.pos = s.pos
  | .t => u.t = s.t
  | .phase => u.phase = s.phase
  | .msg => u.msg = s.msg ∧ ∀ a : Nat, u.msg.read a = s.msg.read a
  | .agenda => u.agenda = s.agenda
  | .reply => u.reply = s.reply
  | .draws => u.draws = s.draws

/-- Every field but those listed is unchanged. -/
def Frame (changed : List Field) (s u : State) : Prop := ∀ f : Field, f ∉ changed → f.same s u

/-! ## Invariants (R40) -/

/-- R40 (a), (b), (d): PHASE is one of the nine codes; POS in PAD; T in WEXP, CLOAD, ROUND and FEED. Beside them what
makes (b) inductive: POS from WLOAD to FEED. -/
structure ControlInv (s : State) : Prop where
  phaseLegal : s.phase.toNat ≤ 8
  padPos : s.phase = Phase.pad →
    448 ∣ s.pos.toNat ∧ s.pos.toNat ≤ s.msgLen.toNat ∧ (s.pos.toNat = 0 ∨ s.pos.toNat < s.msgLen.toNat)
  blockPos : 3 ≤ s.phase.toNat → s.phase.toNat ≤ 7 →
    s.pos.toNat ≤ s.msgLen.toNat ∧ (448 ∣ s.pos.toNat ∨ s.pos = s.msgLen)
  wexpT : s.phase = Phase.wexp → 16 ≤ s.t.toNat ∧ s.t.toNat ≤ 63
  cloadT : s.phase = Phase.cload → s.t.toNat = 64
  roundT : s.phase = Phase.round → s.t.toNat ≤ 63
  feedT : s.phase = Phase.feed → s.t.toNat = 64

/-- Block j of the run on (MSG, L) has been formed: POS, BLK and HS as R143, R181 and R185 have them, j below N. -/
structure InBlock (s : State) (j : Nat) : Prop where
  index : j < numBlocks s.msgLen
  pos : s.pos.toNat = min s.msgLen.toNat (448 * (j + 1))
  blk : s.blk = padBlock s.msg s.msgLen j
  hs : s.hs = chainState s.msg s.msgLen j

/-- What holds of the data in each phase of a run, R40 (c), (e), the chaining invariant R181 and the closed forms R143,
R160, R183: before a PAD, HS is the hash state after the blocks done; in a block, BLK, W and WV are the closed forms'
values at T. -/
structure RunInv (s : State) : Prop where
  control : ControlInv s
  pad : s.phase = Phase.pad → ∃ j : Nat, j < numBlocks s.msgLen ∧ s.pos.toNat = 448 * j ∧
    s.hs = chainState s.msg s.msgLen j
  wload : s.phase = Phase.wload → ∃ j : Nat, InBlock s j
  wexp : s.phase = Phase.wexp → ∃ j : Nat, InBlock s j ∧
    ∀ i : Nat, i < s.t.toNat → storeRead s.w i = storeRead (expand s.blk) i
  cload : s.phase = Phase.cload → ∃ j : Nat, InBlock s j ∧ s.w = expand s.blk
  round : s.phase = Phase.round → ∃ j : Nat, InBlock s j ∧ s.w = expand s.blk ∧
    s.wv = roundsFrom s.hs s.w s.t.toNat
  feed : s.phase = Phase.feed → ∃ j : Nat, InBlock s j ∧ s.w = expand s.blk ∧ s.wv = roundsFrom s.hs s.w 64

/-! ## Premises -/

/-- HOST_TEXT_ONLY (R11, R141): L is a multiple of 8 and the first bit of every octet of MSG is 0, "for all n". Not assumed
by the machine; a claim that needs it says so. DESIGN CHOICE: the spec has no bit MSG[i] for i >= L (R61), the model's MSG can
hold octets there, and this premise asks the first bit of those too to be 0, which is more than MSG[8n] = 0 for 8n < L (log
22). -/
def TextOnly (s : State) : Prop := s.msgLen.toNat % 8 = 0 ∧ ∀ n : Nat, s.msg.bit (8 * n) = false

/-- SEQ has the next step: nothing is planned, or SEQ's turn is first (log 2). -/
def SeqMoves (s : State) : Prop := (takeTurn s).1 = Turn.seq

/-- Once BUSY, a run stays BUSY or is DONE, but for reset (R203, R214). -/
def BusyUntilDone : Prop :=
  ∀ s u : State, s.busy = true → step s = .next u → (takeTurn s).1 ≠ Turn.reset → u.busy = true ∨ u.isDone = true

end Sys2Proof.Safety
end

