-- ==== Sys2Proof/Certificates/Slice0/Obligations.lean ====
section
/-! DEFINITION. The statements for the provers, from the numbered rules of spec/. Sums of words are written on
naturals, reduced modulo 2^32 at the end (R156); POS, MSG_LEN and T are read as naturals. -/

open Sys2Proof Sys2Proof.Machine Sys2Proof.Safety

/-! ## Encoding -/

/-- R98, R99, R101 (byte layout: log 8): no bit of an encoding is dropped. -/
def Obligations.DecodeOfEncodeIsTheInstruction : Prop :=
  ∀ (i : Instr) (rest : List Byte), i.wellFormed = true → decode i.format (encode i ++ rest) = .ok (i, rest)

/-- R98, R99 (byte layout: log 8): what decodes is a well-formed operation of the format asked for, and the bytes are
its encoding, but for the bits of the first byte above the code. -/
def Obligations.DecodedBytesAreTheEncoding : Prop :=
  ∀ (f : Format) (bytes : List Byte) (i : Instr) (rest : List Byte), decode f bytes = .ok (i, rest) →
    i.wellFormed = true ∧ i.format = f ∧
    ∃ b : Byte, bytes = b :: ((encode i).tail ++ rest) ∧ b.toNat % (match f with | .s => 16 | .ha => 8) = i.code

/-- R100 and R101, the code words written out, a host access with any data; R104, R105 for the words that are no row, which
the model's decoder refuses by name (logs 8, 10). -/
def Obligations.CodeWordsDecode : Prop :=
  decodeS 0b0000#4 = .ok .idle ∧ decodeS 0b0001#4 = .ok .init ∧ decodeS 0b0010#4 = .ok .pad ∧
  decodeS 0b0011#4 = .ok .wload ∧ decodeS 0b0100#4 = .ok .wexp ∧ decodeS 0b0101#4 = .ok .cload ∧
  decodeS 0b0110#4 = .ok .round ∧ decodeS 0b0111#4 = .ok .feed ∧ decodeS 0b1000#4 = .ok .done ∧
  (∀ p : BitVec 4, 9 ≤ p.toNat → decodeS p = .error .reservedPhase) ∧
  ∀ data : BitVec 256,
    (data.getLsbD 0 = true → decodeHA 0b100#3 data = .ok (.start (data.setWidth 32))) ∧
    (data.getLsbD 0 = false → decodeHA 0b100#3 data = .error .ctrlWriteWithoutStart) ∧
    decodeHA 0b001#3 data = .ok .rdstatus ∧ decodeHA 0b110#3 data = .ok (.wrlen (data.setWidth 64)) ∧
    decodeHA 0b010#3 data = .ok .rdlen ∧ decodeHA 0b011#3 data = .ok .rddigest ∧
    decodeHA 0b000#3 data = .error .ctrlRead ∧ decodeHA 0b101#3 data = .error .statusWrite ∧
    decodeHA 0b111#3 data = .error .digestWrite

/-- The model's own placing of a table word (logs 8, 9): the very next step runs the operation the decoder reads. -/
def Obligations.PlacedTableWordRunsAsDecoded : Prop :=
  ∀ (s : State) (nbits w : Nat) (i : Instr), decodeTableWord nbits w = some i →
    (i.format = .s → step (s.withFetchWord nbits w) = exec i (positionAt (BitVec.ofNat 4 w) s)) ∧
    (i.format = .ha → step (s.withFetchWord nbits w) = exec i s)

/-! ## A step -/

/-- R98, R200 (the agenda: logs 1, 2): SEQ's step is the operation PHASE selects. -/
def Obligations.SeqStepRunsTheOperationOfPhase : Prop :=
  ∀ (s : State) (i : Instr), decodeS s.phase = .ok i →
    (s.agenda = [] → step s = exec i s) ∧
    (∀ rest : List Turn, s.agenda = .seq :: rest → step s = exec i { s with agenda := rest })

/-- R99, R101 (the agenda: log 1): the host's step is the operation its access selects. -/
def Obligations.HostStepRunsTheDecodedAccess : Prop :=
  ∀ (s : State) (a : HostAccess) (rest : List Turn) (i : Instr), s.agenda = .host a :: rest →
    decodeAccess a.write a.reg a.data = .ok i → step s = exec i { s with agenda := rest }

/-- R105, R210: the step of the host's turn with a reserved access, a dropped one, and the ignored bits of a CTRL write. The
model's own: the agenda (log 1), the field reply (log 7), and the 32 bits of the 0 a register above 3 reads as (log 14). -/
def Obligations.ReservedAccessesHaveNoEffect : Prop :=
  ∀ (s : State) (rest : List Turn) (data : BitVec 256) (reg : Nat),
    let after : HostAccess → Host.Outcome State Fault Refusal := fun a => step { s with agenda := .host a :: rest }
    let dropped : Host.Outcome State Fault Refusal := .next { s with agenda := rest }
    let returns : BitVec 32 → Host.Outcome State Fault Refusal := fun v =>
      .next { s with agenda := rest, reply := .word v }
    (data.getLsbD 0 = false → after ⟨true, 0, data⟩ = dropped) ∧
    (∀ data' : BitVec 256, data'.getLsbD 0 = data.getLsbD 0 → after ⟨true, 0, data'⟩ = after ⟨true, 0, data⟩) ∧
    after ⟨true, 1, data⟩ = dropped ∧ after ⟨true, 3, data⟩ = dropped ∧
    (3 < reg → after ⟨true, reg, data⟩ = dropped ∧ after ⟨false, reg, data⟩ = returns 0#32) ∧
    (s.busy = true → after ⟨true, 2, data⟩ = dropped ∧ after ⟨true, 0, data⟩ = dropped) ∧
    after ⟨false, 0, data⟩ = returns 0#32 ∧ after ⟨false, 1, data⟩ = returns s.status ∧
    (∀ n : Nat, 2 ≤ n → s.status.getLsbD n = false)

/-- R104, 93 U4: with a reserved code SEQ has no step (its turn changes nothing: log 10), STATUS reads 0, START and WRLEN are
dropped, and only reset leaves the code. -/
def Obligations.ReservedPhaseIsStuck : Prop :=
  ∀ s : State, 9 ≤ s.phase.toNat →
    (SeqMoves s → step s = .next (takeTurn s).2) ∧ s.status = 0#32 ∧
    (∀ data : BitVec 32, exec (.start data) s = .next s) ∧ (∀ data : BitVec 64, exec (.wrlen data) s = .next s) ∧
    (∀ u : State, step s = .next u → (takeTurn s).1 ≠ .reset → u.phase = s.phase)

/-! ## SEQ's operations -/

/-- R204: INIT. -/
def Obligations.InitLoadsTheInitialHash : Prop :=
  decodeS 1#4 = .ok .init ∧ ∀ s : State, ∃ u : State, exec .init s = .next u ∧
    u.hs = ⟨0x6a09e667#32, 0xbb67ae85#32, 0x3c6ef372#32, 0xa54ff53a#32,
      0x510e527f#32, 0x9b05688c#32, 0x1f83d9ab#32, 0x5be0cd19#32⟩ ∧
    u.pos = 0#64 ∧ u.phase = 2#4 ∧ Frame [.hs, .pos, .phase] s u

/-- R131 (with R92, R94, R132 to R135): PAD. Bit n of the block is bit 31 - n mod 32 of word n / 32. -/
def Obligations.PadFormsTheBlock : Prop :=
  decodeS 2#4 = .ok .pad ∧ ∀ s : State, s.pos.toNat ≤ s.msgLen.toNat →
    ∃ u : State, exec .pad s = .next u ∧
      (∀ (i : Fin 16) (k : Fin 32), u.blk[i].getLsbD (31 - k.val) =
        (let n := 32 * i.val + k.val
         let c := min 448 (s.msgLen.toNat - s.pos.toNat)
         if n < c then s.msg.bit (s.pos.toNat + n)
         else if n < 448 then decide (n = c)
         else s.msgLen.getLsbD (511 - n))) ∧
      u.pos.toNat = s.pos.toNat + min 448 (s.msgLen.toNat - s.pos.toNat) ∧ u.phase = 3#4 ∧
      Frame [.blk, .pos, .phase] s u

/-- R143: a PAD at POS = 448 j leaves block j of pad(MSG, L), of which there are N; only the last chunk can be short. That the
(j+1)-th PAD of a run starts with POS = 448 j is in RunFollowsTheFixedSequence. -/
def Obligations.PadFollowsTheClosedForm : Prop :=
  ∀ (s : State) (j : Nat), j < numBlocks s.msgLen → s.pos.toNat = 448 * j →
    ∃ u : State, exec .pad s = .next u ∧ (padAll s.msg s.msgLen)[j]? = some u.blk ∧
      u.pos.toNat = min s.msgLen.toNat (448 * (j + 1)) ∧
      (padAll s.msg s.msgLen).length = max 1 ((s.msgLen.toNat + 447) / 448) ∧
      (min 448 (s.msgLen.toNat - 448 * j) < 448 → j = numBlocks s.msgLen - 1) ∧ Frame [.blk, .pos, .phase] s u

/-- R158: WLOAD. -/
def Obligations.WloadCopiesTheBlock : Prop :=
  decodeS 3#4 = .ok .wload ∧ ∀ s : State, ∃ u : State, exec .wload s = .next u ∧
    (∀ i : Nat, i < 16 → storeRead u.w i = storeRead s.blk i) ∧
    (∀ i : Nat, 16 ≤ i → i < 64 → storeRead u.w i = storeRead s.w i) ∧
    u.t.toNat = 16 ∧ u.phase = 4#4 ∧ Frame [.w, .t, .phase] s u

/-- R159: WEXP, at every T the rule enables it for. -/
def Obligations.WexpComputesOneScheduleWord : Prop :=
  decodeS 4#4 = .ok .wexp ∧ ∀ s : State, 16 ≤ s.t.toNat → s.t.toNat ≤ 63 →
    ∃ u : State, exec .wexp s = .next u ∧
      (storeRead u.w s.t.toNat).toNat =
        ((storeRead s.w (s.t.toNat - 16)).toNat + (smallSigma0 (storeRead s.w (s.t.toNat - 15))).toNat +
          (storeRead s.w (s.t.toNat - 7)).toNat + (smallSigma1 (storeRead s.w (s.t.toNat - 2))).toNat) % 2 ^ 32 ∧
      (∀ i : Nat, i < 64 → i ≠ s.t.toNat → storeRead u.w i = storeRead s.w i) ∧
      u.t.toNat = s.t.toNat + 1 ∧ u.phase = (if s.t.toNat = 63 then 5#4 else 4#4) ∧ Frame [.w, .t, .phase] s u

/-- R177: CLOAD. -/
def Obligations.CloadCopiesTheHashState : Prop :=
  decodeS 5#4 = .ok .cload ∧ ∀ s : State, ∃ u : State, exec .cload s = .next u ∧
    (∀ i : Fin 8, u.wv.get i = s.hs.get i) ∧
    u.t.toNat = 0 ∧ u.phase = 6#4 ∧ Frame [.wv, .t, .phase] s u

/-- R178 (with R174, R175): ROUND, at every T the rule enables it for. -/
def Obligations.RoundUpdatesTheWorkingVariables : Prop :=
  decodeS 6#4 = .ok .round ∧ ∀ s : State, s.t.toNat ≤ 63 →
    ∃ u : State, exec .round s = .next u ∧
      (let t1 := s.wv.h.toNat + (bigSigma1 s.wv.e).toNat + (ch s.wv.e s.wv.f s.wv.g).toNat +
         (kAt s.t.toNat).toNat + (storeRead s.w s.t.toNat).toNat
       let t2 := (bigSigma0 s.wv.a).toNat + (maj s.wv.a s.wv.b s.wv.c).toNat
       u.wv.a.toNat = (t1 + t2) % 2 ^ 32 ∧ u.wv.e.toNat = (s.wv.d.toNat + t1) % 2 ^ 32) ∧
      u.wv.b = s.wv.a ∧ u.wv.c = s.wv.b ∧ u.wv.d = s.wv.c ∧ u.wv.f = s.wv.e ∧ u.wv.g = s.wv.f ∧ u.wv.h = s.wv.g ∧
      u.t.toNat = s.t.toNat + 1 ∧ u.phase = (if s.t.toNat = 63 then 7#4 else 6#4) ∧ Frame [.wv, .t, .phase] s u

/-- R179, R180: FEED. -/
def Obligations.FeedAddsAndDecides : Prop :=
  decodeS 7#4 = .ok .feed ∧ ∀ s : State, ∃ u : State, exec .feed s = .next u ∧
    (∀ i : Fin 8, (u.hs.get i).toNat = ((s.hs.get i).toNat + (s.wv.get i).toNat) % 2 ^ 32) ∧
    u.phase = (if s.pos.toNat < s.msgLen.toNat then 2#4 else 8#4) ∧ Frame [.hs, .phase] s u

/-- Outside the states R40 allows (log 11, the model's choice): a word that does not exist (R62) and a chunk that does not
(R16) are free values, and every other effect of R159, R178 and R131 happens. WEXP with T below 16 writes one word that depends
on the draw alone, with T above 63 none; ROUND with T above 63 has a free T1; PAD with POS above MSG_LEN has a free chunk of at
most 448 bits, with the marker after it and the length field as ever. -/
def Obligations.OperandsOutOfRangeAreFree : Prop :=
  ∀ s : State,
    (s.t.toNat < 16 → ∃ (u : State) (x : Word), exec .wexp s = .next u ∧ storeRead u.w s.t.toNat = x ∧
      (∀ i : Nat, i < 64 → i ≠ s.t.toNat → storeRead u.w i = storeRead s.w i) ∧
      u.t.toNat = s.t.toNat + 1 ∧ u.phase = 4#4 ∧ u.draws = s.draws + 1 ∧ Frame [.w, .t, .phase, .draws] s u ∧
      ∀ s' : State, s'.t.toNat < 16 → s'.draws = s.draws →
        ∃ u' : State, exec .wexp s' = .next u' ∧ storeRead u'.w s'.t.toNat = x) ∧
    (63 < s.t.toNat → ∃ u : State, exec .wexp s = .next u ∧ u.t.toNat = (s.t.toNat + 1) % 128 ∧ u.phase = 4#4 ∧
      Frame [.t, .phase] s u) ∧
    (63 < s.t.toNat → ∃ (u : State) (t1 : Word), exec .round s = .next u ∧
      u.wv.a = add32 t1 (temp2 s.wv) ∧ u.wv.e = add32 s.wv.d t1 ∧
      u.wv.b = s.wv.a ∧ u.wv.c = s.wv.b ∧ u.wv.d = s.wv.c ∧ u.wv.f = s.wv.e ∧ u.wv.g = s.wv.f ∧ u.wv.h = s.wv.g ∧
      u.t.toNat = (s.t.toNat + 1) % 128 ∧ u.phase = 6#4 ∧ u.draws = s.draws + 2 ∧
      Frame [.wv, .t, .phase, .draws] s u) ∧
    (s.msgLen.toNat < s.pos.toNat → ∃ (u : State) (chunk : List Bool), exec .pad s = .next u ∧ chunk.length ≤ 448 ∧
      (∀ (i : Fin 16) (k : Fin 32), u.blk[i].getLsbD (31 - k.val) =
        (let n := 32 * i.val + k.val
         if n < chunk.length then chunk.getD n false
         else if n < 448 then decide (n = chunk.length)
         else s.msgLen.getLsbD (511 - n))) ∧
      u.pos.toNat = (s.pos.toNat + chunk.length) % 2 ^ 64 ∧ u.phase = 3#4 ∧ u.draws = s.draws + 1 ∧
      Frame [.blk, .pos, .phase, .draws] s u)

/-- R202: the core is in IDLE after reset; STATUS reads 0, DIGEST is not valid, and a step leaves IDLE only by a START. The
model's form of "SEQ has no enabled step" is that the operation and SEQ's turn answer the state unchanged (log 13; the turns:
logs 1, 2). -/
def Obligations.IdleWaitsForStart : Prop :=
  decodeS 0#4 = .ok .idle ∧ State.reset.phase = 0#4 ∧ ∀ s : State, exec .idle s = .next s ∧
    (s.phase = 0#4 → s.status = 0#32 ∧ s.isDone = false ∧ (SeqMoves s → step s = .next (takeTurn s).2) ∧
      ∀ u : State, step s = .next u → u.phase ≠ 0#4 → u.phase = 1#4 ∧
        ∃ a : HostAccess, (takeTurn s).1 = .host a ∧ a.write = true ∧ a.reg = 0 ∧ a.data.getLsbD 0 = true)

/-- R205: STATUS reads DONE alone, and DONE and HS stay until a START or a reset. The model's form of "SEQ has no enabled step"
is that the operation and SEQ's turn answer the state unchanged (log 13; the turns: logs 1, 2). -/
def Obligations.DoneHoldsTheDigest : Prop :=
  decodeS 8#4 = .ok .done ∧ ∀ s : State, exec .done s = .next s ∧
    (s.phase = 8#4 → s.status = 2#32 ∧ (SeqMoves s → step s = .next (takeTurn s).2) ∧
      ∀ u : State, step s = .next u → (u.phase = 8#4 ∧ u.hs = s.hs ∧ u.digest = s.digest) ∨
        (takeTurn s).1 = .reset ∨
        (u.phase = 1#4 ∧ u.hs = s.hs ∧
          ∃ a : HostAccess, (takeTurn s).1 = .host a ∧ a.write = true ∧ a.reg = 0 ∧ a.data.getLsbD 0 = true))

/-! ## The host's accesses -/

/-- R203, R213: START, accepted in IDLE and DONE, dropped in every other phase; bits 31:1 do not matter; BUSY stays 1
until DONE. -/
def Obligations.StartBeginsARunOrIsDropped : Prop :=
  (∀ data : BitVec 256, data.getLsbD 0 = true → decodeAccess true 0 data = .ok (.start (data.setWidth 32))) ∧
  BusyUntilDone ∧
  ∀ (s : State) (data : BitVec 32), data.getLsbD 0 = true →
    (s.phase = 0#4 ∨ s.phase = 8#4 → ∃ u : State, exec (.start data) s = .next u ∧ u.phase = 1#4 ∧
      u.busy = true ∧ u.isDone = false ∧ Frame [.phase] s u) ∧
    (s.phase ≠ 0#4 → s.phase ≠ 8#4 → exec (.start data) s = .next s)

/-- R206: WRLEN, stored in IDLE and DONE, dropped otherwise; PHASE and DIGEST are left alone. -/
def Obligations.WrlenStoresOrIsDropped : Prop :=
  (∀ data : BitVec 256, decodeAccess true 2 data = .ok (.wrlen (data.setWidth 64))) ∧
  ∀ (s : State) (data : BitVec 64),
    (s.phase = 0#4 ∨ s.phase = 8#4 → ∃ u : State, exec (.wrlen data) s = .next u ∧ u.msgLen = data ∧
      u.digest = s.digest ∧ Frame [.msgLen] s u) ∧
    (s.phase ≠ 0#4 → s.phase ≠ 8#4 → exec (.wrlen data) s = .next s)

/-- R207: RDLEN, in every phase. -/
def Obligations.RdlenReturnsTheLength : Prop :=
  (∀ data : BitVec 256, decodeAccess false 2 data = .ok .rdlen) ∧
  ∀ s : State, ∃ u : State, exec .rdlen s = .next u ∧ u.reply = .length s.msgLen ∧ Frame [.reply] s u

/-- R208: RDSTATUS, in every phase. -/
def Obligations.RdstatusReturnsBusyAndDone : Prop :=
  (∀ data : BitVec 256, decodeAccess false 1 data = .ok .rdstatus) ∧
  ∀ s : State, ∃ (u : State) (v : BitVec 32), exec .rdstatus s = .next u ∧ u.reply = .word v ∧
    v.getLsbD 0 = decide (1 ≤ s.phase.toNat ∧ s.phase.toNat ≤ 7) ∧ v.getLsbD 1 = decide (s.phase = 8#4) ∧
    (∀ n : Nat, 2 ≤ n → v.getLsbD n = false) ∧ (v = 0#32 ∨ v = 1#32 ∨ v = 2#32) ∧ Frame [.reply] s u

/-- R209, R182: RDDIGEST in DONE returns the eight words of HS, HS[0] most significant. -/
def Obligations.RddigestReturnsTheHashState : Prop :=
  (∀ data : BitVec 256, decodeAccess false 3 data = .ok .rddigest) ∧
  ∀ s : State, s.phase = 8#4 → ∃ (u : State) (d : BitVec 256), exec .rddigest s = .next u ∧ u.reply = .digest d ∧
    (∀ i : Fin 8, d.extractLsb' (224 - 32 * i.val) 32 = s.hs.get i) ∧ Frame [.reply] s u

/-- R209, 93 U2 (the free draw and its counter: log 4): RDDIGEST outside DONE runs, makes one new draw, changes no state of
the core, and what it returns does not depend on anything the core holds. -/
def Obligations.EarlyDigestReadShowsNothing : Prop :=
  ∀ s : State, s.phase ≠ 8#4 →
    ∃ (u : State) (d : BitVec 256), exec .rddigest s = .next u ∧ u.reply = .digest d ∧
      u.draws = s.draws + 1 ∧ Frame [.reply, .draws] s u ∧
      ∀ s' : State, s'.phase ≠ 8#4 → s'.draws = s.draws →
        ∃ u' : State, exec .rddigest s' = .next u' ∧ u'.reply = .digest d

/-! ## The datapath and the constants -/

/-- R150, R156: addition modulo 2^32, the carry dropped; sums of up to five words reduce once at the end. -/
def Obligations.AdditionWraps : Prop :=
  ∀ x y z u v : Word, (add32 (add32 (add32 (add32 x y) z) u) v).toNat =
      (x.toNat + y.toNat + z.toNat + u.toNat + v.toNat) % 2 ^ 32 ∧
    (add32 x y).toNat = (x.toNat + y.toNat) % 2 ^ 32 ∧ add32 x y = add32 y x ∧
    add32 (add32 x y) z = add32 x (add32 y z) ∧ add32 x 0#32 = x

/-- R151, R152: rotation to the right, which loses no bit, and logical shift to the right, bit by bit. -/
def Obligations.RotateAndShiftBits : Prop :=
  ∀ (x : Word) (n i : Nat), 0 < n → n < 32 → i < 32 →
    (rotr x n).getLsbD i = x.getLsbD ((i + n) % 32) ∧
    rotr x n = (x >>> n) ||| (x <<< (32 - n)) ∧ rotr 0#32 n = 0#32 ∧ rotr 0xFFFFFFFF#32 n = 0xFFFFFFFF#32 ∧
    ((List.range 32).map (rotr x n).getLsbD).count true = ((List.range 32).map x.getLsbD).count true ∧
    (shr x n).getLsbD i = (decide (i + n ≤ 31) && x.getLsbD (i + n)) ∧ (shr x n).toNat = x.toNat / 2 ^ n

/-- R154, R155, R170, R172: σ0, σ1, S1 and S0, bit by bit. -/
def Obligations.SigmaBits : Prop :=
  ∀ (x : Word) (i : Nat), i < 32 →
    (smallSigma0 x).getLsbD i =
      ((x.getLsbD ((i + 7) % 32) ^^ x.getLsbD ((i + 18) % 32)) ^^ (decide (i + 3 ≤ 31) && x.getLsbD (i + 3))) ∧
    (smallSigma1 x).getLsbD i =
      ((x.getLsbD ((i + 17) % 32) ^^ x.getLsbD ((i + 19) % 32)) ^^ (decide (i + 10 ≤ 31) && x.getLsbD (i + 10))) ∧
    (bigSigma1 x).getLsbD i =
      ((x.getLsbD ((i + 6) % 32) ^^ x.getLsbD ((i + 11) % 32)) ^^ x.getLsbD ((i + 25) % 32)) ∧
    (bigSigma0 x).getLsbD i =
      ((x.getLsbD ((i + 2) % 32) ^^ x.getLsbD ((i + 13) % 32)) ^^ x.getLsbD ((i + 22) % 32))

/-- R171, R173: Ch takes y's bit where x has a 1 and z's elsewhere; Maj is 1 where at least two inputs are 1. -/
def Obligations.ChooseAndMajorityBits : Prop :=
  ∀ (x y z : Word) (i : Nat), i < 32 →
    (ch x y z).getLsbD i = (if x.getLsbD i then y.getLsbD i else z.getLsbD i) ∧
    (maj x y z).getLsbD i =
      decide (2 ≤ (x.getLsbD i).toNat + (y.getLsbD i).toNat + (z.getLsbD i).toNat)

/-- R120, R122, R124: the stores hold the low 32 bits of the integer roots, of the first 64 and 8 primes. -/
def Obligations.ConstantsAreTheRootsOfPrimes : Prop :=
  primes.length = 64 ∧ (∀ n : Nat, n ∈ primes ↔ Nat.Prime n ∧ n ≤ 311) ∧ primes.Pairwise (· < ·) ∧
  (∀ t : Nat, t < 64 → ∃ r : Nat, r ^ 3 ≤ primes.getD t 0 * 2 ^ 96 ∧ primes.getD t 0 * 2 ^ 96 < (r + 1) ^ 3 ∧
    (kAt t).toNat = r % 2 ^ 32) ∧
  (∀ i : Fin 8, ∃ r : Nat, r ^ 2 ≤ primes.getD i.val 0 * 2 ^ 64 ∧ primes.getD i.val 0 * 2 ^ 64 < (r + 1) ^ 2 ∧
    (h0.get i).toNat = r % 2 ^ 32)

/-! ## Views -/

/-- R31: STATUS is a function of PHASE; BUSY and DONE are never both 1; it reads 0 after reset, and writes of it are
ignored. -/
def Obligations.StatusIsAFunctionOfPhase : Prop :=
  State.reset.status = 0#32 ∧ ∀ s : State, (∀ data : BitVec 256, hostTurn ⟨true, 1, data⟩ s = .next s) ∧
    (s.status.getLsbD 0 = true ↔ 1 ≤ s.phase.toNat ∧ s.phase.toNat ≤ 7) ∧
    (s.status.getLsbD 1 = true ↔ s.phase.toNat = 8) ∧ (∀ n : Nat, 2 ≤ n → s.status.getLsbD n = false) ∧
    ¬ (s.status.getLsbD 0 = true ∧ s.status.getLsbD 1 = true) ∧
    (s.phase.toNat ≤ 8 → (s.status = 0#32 ↔ s.phase.toNat = 0)) ∧ (s.isDone = s.status.getLsbD 1)

/-- R66: octet 4i+k of the digest is HS[i][31-8k : 24-8k], and character 8i+m of its text the digit of HS[i][31-4m : 28-4m],
in 0123456789abcdef; 64 characters. -/
def Obligations.DigestOctetsAndDigits : Prop :=
  (∀ v : Nat, v < 16 → "0123456789abcdef".toList[v]? = some (hexDigit v)) ∧
  ∀ (hs : Eight) (i : Fin 8),
    (∀ k : Fin 4, (digestOf hs).toNat / 256 ^ (31 - (4 * i.val + k.val)) % 256 =
      (hs.get i).toNat / 2 ^ (24 - 8 * k.val) % 256) ∧
    (∀ m : Fin 8, (hexText (digestOf hs))[8 * i.val + m.val]? =
      some (hexDigit ((hs.get i).toNat / 2 ^ (28 - 4 * m.val) % 16))) ∧ (hexText (digestOf hs)).length = 64

/-! ## The message space and the reset input -/

/-- R61, R67, R262, R264 (octets: log 5; the refusal, of every message turn while BUSY, whether or not it changes a bit of MSG:
logs 6, 21): an octet the host presents while BUSY = 0 reads back, bit
by bit, and nothing else changes; while BUSY = 1 the turn is refused. -/
def Obligations.PresentedOctetReadsBack : Prop :=
  ∀ (s : State) (a : BitVec 61) (v : Byte) (rest : List Turn), s.msg.wf = true → s.agenda = .message a v :: rest →
    (s.busy = false → ∃ u : State, step s = .next u ∧
      (∀ k : Nat, k < 8 → u.msg.bit (8 * a.toNat + k) = v.getLsbD (7 - k)) ∧
      (∀ i : Nat, i / 8 ≠ a.toNat → u.msg.bit i = s.msg.bit i) ∧ u.msg.wf = true ∧ u.agenda = rest ∧
      Frame [.msg, .agenda] s u) ∧
    (s.busy = true → step s = .refused .messageChangedWhileBusy)

/-- R260, R261 (free draws and their counter: logs 3, 4; what is not the core's: log 15): reset puts the core in IDLE from any
phase and makes one new draw, and what its registers then hold tells nothing of what they held; MSG, the turns to come and the
host's last reply are not the core's. -/
def Obligations.ResetForgetsTheCore : Prop :=
  ∀ (s : State) (rest : List Turn), s.agenda = .reset :: rest →
    ∃ u : State, step s = .next u ∧ u.phase = 0#4 ∧ u.status = 0#32 ∧ u.isDone = false ∧ u.agenda = rest ∧
      u.draws = s.draws + 1 ∧ Field.same .msg s u ∧ Field.same .reply s u ∧
      ∀ s' : State, s'.agenda = .reset :: rest → s'.draws = s.draws →
        ∃ u' : State, step s' = .next u' ∧
          Frame [.msg, .agenda, .reply] u u'

/-- R39, R260: right after reset PHASE is IDLE and STATUS reads 0. That SEQ alone changes nothing is the model's form of "SEQ
has no step": with no turn planned SEQ moves (logs 1, 2), and its turn in IDLE answers the state unchanged (log 13). -/
def Obligations.ResetStateIsIdle : Prop :=
  State.reset.phase = 0#4 ∧ State.reset.status = 0#32 ∧ State.reset.isDone = false ∧ State.reset.msg.wf = true ∧
  step State.reset = .next State.reset

/-! ## Invariants and whole-machine rules -/

/-- R40 (a), (b), (d) hold right after reset. -/
def Obligations.ControlInvHoldsAtReset : Prop := ControlInv State.reset

/-- R40 (a), (b), (d): every step of every agent keeps them, and MSG's canonical form (log 5). -/
def Obligations.StepKeepsControlInv : Prop :=
  ∀ s u : State, step s = .next u →
    (ControlInv s → ControlInv u) ∧ (s.msg.wf = true → u.msg.wf = true)

/-- R230, and R215's "no step draws a free value" where R40 holds: no step faults; nothing but the host's presenting of MSG
while BUSY stops, and that is refused (logs 6, 21); where R40 (a), (b), (d) hold, SEQ's turn makes no draw. That SEQ's turn
answers a next state in every state is the model's form: in IDLE and DONE (log 13) and with a reserved code (log 10, where the
spec says stuck) SEQ has no step and its turn changes nothing. -/
def Obligations.NothingStopsButAChangeOfMsg : Prop :=
  ∀ s : State,
    (∀ f : Fault, step s ≠ .fault f) ∧
    ((∃ u : State, step s = .next u) ∨
      (s.busy = true ∧ (∃ a v, (takeTurn s).1 = .message a v) ∧ step s = .refused .messageChangedWhileBusy)) ∧
    (SeqMoves s → ∃ u : State, step s = .next u ∧ (ControlInv s → u.draws = s.draws))

/-- R40 (e) and the closed forms hold right after reset. -/
def Obligations.RunInvHoldsAtReset : Prop := RunInv State.reset

/-- R40 (c), (e), R181: every step keeps the data of a run at the closed forms' values. -/
def Obligations.StepKeepsRunInv : Prop :=
  ∀ s u : State, RunInv s → step s = .next u → RunInv u

/-- R182, R185, R211: in a state of a run, the FEED that enters DONE leaves the digest of (MSG, L). -/
def Obligations.LastFeedLeavesTheCoreDigest : Prop :=
  ∀ s : State, RunInv s → s.phase = 7#4 → SeqMoves s → s.msgLen.toNat ≤ s.pos.toNat →
    ∃ u : State, step s = .next u ∧ u.isDone = true ∧ u.digest = coreDigest s.msg s.msgLen

/-- R20, R21 to R24, R27 to R29, R61 (reset apart, R260): who writes each register. -/
def Obligations.RegistersHaveTheirWriters : Prop :=
  ∀ s u : State, step s = .next u → (takeTurn s).1 ≠ .reset →
    (u.hs ≠ s.hs → SeqMoves s ∧ (s.phase = 1#4 ∨ s.phase = 7#4)) ∧
    (u.wv ≠ s.wv → SeqMoves s ∧ (s.phase = 5#4 ∨ s.phase = 6#4)) ∧
    (u.blk ≠ s.blk → SeqMoves s ∧ s.phase = 2#4) ∧
    (u.w ≠ s.w → SeqMoves s ∧ (s.phase = 3#4 ∨ s.phase = 4#4)) ∧
    (u.pos ≠ s.pos → SeqMoves s ∧ (s.phase = 1#4 ∨ s.phase = 2#4)) ∧
    (u.t ≠ s.t → SeqMoves s ∧ (s.phase = 3#4 ∨ s.phase = 4#4 ∨ s.phase = 5#4 ∨ s.phase = 6#4)) ∧
    (u.msgLen ≠ s.msgLen → s.busy = false ∧ ∃ data : BitVec 256, (takeTurn s).1 = .host ⟨true, 2, data⟩) ∧
    (u.msg ≠ s.msg → s.busy = false ∧ ∃ a v, (takeTurn s).1 = .message a v)

/-- R201: the transition table, every way PHASE can change. With T above 63, which no run reaches, WEXP and ROUND keep their
phase (log 11); a reserved code has no step (log 10). -/
def Obligations.PhaseChangesOnlyByTheTable : Prop :=
  ∀ s u : State, step s = .next u →
    match (takeTurn s).1 with
    | .reset => u.phase = 0#4
    | .message _ _ => u.phase = s.phase
    | .host a =>
        u.phase = if a.write = true ∧ a.reg = 0 ∧ a.data.getLsbD 0 = true ∧ (s.phase = 0#4 ∨ s.phase = 8#4) then 1#4
          else s.phase
    | .seq =>
        (s.phase = 0#4 ∧ u.phase = 0#4) ∨ (s.phase = 8#4 ∧ u.phase = 8#4) ∨ (s.phase = 1#4 ∧ u.phase = 2#4) ∨
        (s.phase = 2#4 ∧ u.phase = 3#4) ∨ (s.phase = 3#4 ∧ u.phase = 4#4) ∨
        (s.phase = 4#4 ∧ s.t.toNat ≠ 63 ∧ u.phase = 4#4) ∨ (s.phase = 4#4 ∧ s.t.toNat = 63 ∧ u.phase = 5#4) ∨
        (s.phase = 5#4 ∧ u.phase = 6#4) ∨
        (s.phase = 6#4 ∧ s.t.toNat ≠ 63 ∧ u.phase = 6#4) ∨ (s.phase = 6#4 ∧ s.t.toNat = 63 ∧ u.phase = 7#4) ∨
        (s.phase = 7#4 ∧ s.pos.toNat < s.msgLen.toNat ∧ u.phase = 2#4) ∨
        (s.phase = 7#4 ∧ s.msgLen.toNat ≤ s.pos.toNat ∧ u.phase = 8#4) ∨
        (9 ≤ s.phase.toNat ∧ u.phase = s.phase)

/-- R214 (with R74): no host access of any kind touches the run in progress, and the only way out of a run before DONE
is reset. -/
def Obligations.HostAccessWhileBusyKeepsTheRun : Prop :=
  BusyUntilDone ∧ ∀ (s : State) (a : HostAccess) (rest : List Turn), s.busy = true → s.agenda = .host a :: rest →
    ∃ u : State, step s = .next u ∧ u.agenda = rest ∧ Frame [.agenda, .reply, .draws] s u

/-! ## Closed forms and whole runs -/

/-- R160: expand(b) satisfies the recurrence. -/
def Obligations.ExpandFollowsTheRecurrence : Prop :=
  ∀ b : Vector Word 16,
    (∀ t : Nat, t < 16 → storeRead (expand b) t = storeRead b t) ∧
    (∀ t : Nat, 16 ≤ t → t < 64 → (storeRead (expand b) t).toNat =
      ((storeRead (expand b) (t - 16)).toNat + (smallSigma0 (storeRead (expand b) (t - 15))).toNat +
        (storeRead (expand b) (t - 7)).toNat + (smallSigma1 (storeRead (expand b) (t - 2))).toNat) % 2 ^ 32)

/-- R160 (SEQ moves with no turn planned: log 2): WLOAD and 48 WEXP turn BLK into expand(BLK), which the recurrence defines,
whatever W, HS and T held. -/
def Obligations.WloadAndWexpComputeExpand : Prop :=
  ∀ s : State, s.agenda = [] → s.phase = 3#4 →
    ∃ u : State, Sys2Proof.core.run 49 s = .next u ∧ u.w = expand s.blk ∧ u.t.toNat = 64 ∧ u.phase = 5#4 ∧
      (∀ t : Nat, t < 16 → storeRead u.w t = storeRead s.blk t) ∧
      (∀ t : Nat, 16 ≤ t → t < 64 → (storeRead u.w t).toNat =
        ((storeRead u.w (t - 16)).toNat + (smallSigma0 (storeRead u.w (t - 15))).toNat +
          (storeRead u.w (t - 7)).toNat + (smallSigma1 (storeRead u.w (t - 2))).toNat) % 2 ^ 32) ∧
      Frame [.w, .t, .phase] s u

/-- R183, R176 (SEQ moves with no turn planned: log 2): CLOAD, 64 ROUND and FEED turn HS into process_block(HS, W). -/
def Obligations.CompressionIsProcessBlock : Prop :=
  ∀ s : State, s.agenda = [] → s.phase = 5#4 →
    ∃ u : State, Sys2Proof.core.run 66 s = .next u ∧ u.hs = processBlock s.hs s.w ∧
      u.phase = (if s.pos.toNat < s.msgLen.toNat then 2#4 else 8#4) ∧ Frame [.hs, .wv, .t, .phase] s u

/-- R185, R215, R267 (SEQ moves with no turn planned: log 2): from an accepted START, SEQ alone reaches DONE with the digest of
(MSG, L) after exactly 1 + 116 N steps, whatever the registers held. -/
def Obligations.RunComputesTheCoreDigest : Prop :=
  ∀ s : State, s.agenda = [] → s.phase = 1#4 →
    ∃ u : State, Sys2Proof.core.run (1 + 116 * numBlocks s.msgLen) s = .next u ∧ u.phase = 8#4 ∧
      u.digest = coreDigest s.msg s.msgLen ∧ u.reply = s.reply ∧ Field.same .msg s u ∧ u.msgLen = s.msgLen

/-- R267, the sequence of R201, and R143's POS at each PAD (SEQ moves with no turn planned: log 2): INIT, then N times PAD,
WLOAD, 48 WEXP, CLOAD, 64 ROUND, FEED, with POS = 448 j at the PAD of block j and T counting; BUSY all along, DONE after
1 + 116 N steps. `n` is the number of steps already taken in block j. -/
def Obligations.RunFollowsTheFixedSequence : Prop :=
  ∀ s : State, s.agenda = [] → s.phase = 1#4 →
    (∀ j n : Nat, j < numBlocks s.msgLen → n < 116 →
      ∃ u : State, Sys2Proof.core.run (1 + 116 * j + n) s = .next u ∧ u.busy = true ∧
        u.phase = (if n = 0 then 2#4 else if n = 1 then 3#4 else if n < 50 then 4#4 else if n = 50 then 5#4
          else if n < 115 then 6#4 else 7#4) ∧
        (n = 0 → u.pos.toNat = 448 * j) ∧
        (2 ≤ n → n < 50 → u.t.toNat = 14 + n) ∧ (51 ≤ n → n < 115 → u.t.toNat = n - 51)) ∧
    (∃ u : State, Sys2Proof.core.run (1 + 116 * numBlocks s.msgLen) s = .next u ∧ u.phase = 8#4) ∧
    numBlocks s.msgLen = max 1 ((s.msgLen.toNat + 447) / 448)

/-- R74, R215 (the agenda: log 1; SEQ alone: log 2): however host accesses interleave with the first k SEQ steps of a run, k
short of its end, the core is where k SEQ steps alone bring it. -/
def Obligations.InterleavingDoesNotMatter : Prop :=
  ∀ (s : State) (k : Nat), s.phase = 1#4 → (∀ turn ∈ s.agenda, turn = .seq ∨ ∃ a, turn = .host a) →
    s.agenda.count .seq = k → k < 1 + 116 * numBlocks s.msgLen →
    ∃ u v : State, Sys2Proof.core.run s.agenda.length s = .next u ∧
      Sys2Proof.core.run k { s with agenda := [] } = .next v ∧ Frame [.reply, .draws] v u

/-- R216, R67, R91, R141 (a text is its code points: log 18; past the text an octet reads 00, and TextOnly
asks of those octets too: logs 5, 22): the front end puts each
character's octet in MSG most significant bit first, code points of 128 and more as 0x3F; L is 8 n; the message is text
(HOST_TEXT_ONLY). -/
def Obligations.TextFrontEndMakesTheMessage : Prop :=
  ∀ (text : List Nat) (s : State), 8 * text.length < 2 ^ 64 → s.msg = textMessage text →
    s.msgLen = textLength text →
    s.msgLen.toNat = 8 * text.length ∧ TextOnly s ∧
    ∀ n k : Nat, k < 8 → ∀ u : Nat, text[n]? = some u →
      s.msg.bit (8 * n + k) = Nat.testBit (if u < 128 then u else 0x3F) (7 - k)
end

