-- ==== Sys2Proof/Laws/Ops.lean ====
section
/-! SUPPORT. One spec lemma for each shared operation: bit strings, block assembly, word stores, the schedule and the
primitives of the datapath. -/

namespace Sys2Proof.Machine

/-! ## Bit strings (R14) -/

@[simp] theorem be_length {n : Nat} (v : BitVec n) : (be v).length = n := by simp [be]

theorem be_getElem {n : Nat} (v : BitVec n) (i : Nat) (h : i < (be v).length) :
    (be v)[i] = v.getLsbD (n - 1 - i) := by simp [be]

theorem val_append_singleton (s : List Bool) (b : Bool) : val (s ++ [b]) = 2 * val s + b.toNat := by
  simp [val]

/-- Bit k of val(s), counted from the last bit of s. -/
theorem val_testBit (s : List Bool) (k : Nat) :
    (val s).testBit k = (s.reverse[k]?).getD false := by
  induction s using List.reverseRecOn generalizing k with
  | nil => simp [val]
  | append_singleton s b ih =>
    rw [val_append_singleton]
    cases k with
    | zero => cases b <;> simp [Nat.testBit_zero, Nat.add_mod]
    | succ k =>
      have hdiv : (2 * val s + b.toNat) / 2 = val s := by cases b <;> (simp; try omega)
      simp [Nat.testBit_succ, hdiv, ih]

/-! ## Word stores (R62) -/

theorem storeRead_of_lt {n : Nat} (xs : Vector Word n) {i : Nat} (h : i < n) : storeRead xs i = xs[i] := by
  simp [storeRead, h]

theorem storeRead_storeWrite {n : Nat} (xs : Vector Word n) (i : Nat) (x : Word) {j : Nat} (hj : j < n) :
    storeRead (storeWrite xs i x) j = if j = i then x else storeRead xs j := by
  by_cases hi : i < n
  · simp only [storeWrite, hi, dif_pos, storeRead, hj, Vector.getElem_set, eq_comm]
  · have : j ≠ i := by omega
    simp [storeWrite, hi, this]

/-- There is no word to write past the end of a store (R62). -/
theorem storeWrite_of_le {n : Nat} (xs : Vector Word n) {i : Nat} (x : Word) (h : n ≤ i) : storeWrite xs i x = xs :=
  dif_neg (by omega)

theorem store_ext {n : Nat} {xs ys : Vector Word n} (h : ∀ i, i < n → storeRead xs i = storeRead ys i) : xs = ys := by
  apply Vector.ext
  intro i hi
  simpa [storeRead, hi] using h i hi

theorem storeRead_ofFn {n : Nat} (f : Fin n → Word) {i : Nat} (h : i < n) :
    storeRead (Vector.ofFn f) i = f ⟨i, h⟩ := by
  simp [storeRead, h]

/-! ## Block assembly (R92, R131, R135) -/

@[simp] theorem memRead_length (m : Memory) (addr n : Nat) : (m.memRead addr n).length = n := by
  simp [Memory.memRead]

theorem chunkLength_le (len pos : Nat) : chunkLength len pos ≤ 448 := Nat.min_le_left _ _

theorem freeChunk_length_le (n : Nat) : (freeChunk n).length ≤ 448 := by
  rw [freeChunk, List.length_take, be_length]
  exact Nat.min_le_right _ _

/-- Where POS is at most L, the chunk is the message bits from POS on. -/
theorem padChunk_of_le (m : Memory) {len pos : BitVec 64} (h : pos.toNat ≤ len.toNat) (draw : Nat) :
    padChunk m len pos draw = m.memRead pos.toNat (chunkLength len.toNat pos.toNat) := if_neg (by omega)

theorem padChunk_of_lt (m : Memory) {len pos : BitVec 64} (h : len.toNat < pos.toNat) (draw : Nat) :
    padChunk m len pos draw = freeChunk draw := if_pos h

/-- Whatever POS is, c is at most 448 (R102). -/
theorem padChunk_length_le (m : Memory) (len pos : BitVec 64) (draw : Nat) :
    (padChunk m len pos draw).length ≤ 448 := by
  unfold padChunk
  split
  · exact freeChunk_length_le draw
  · rw [memRead_length]
    exact chunkLength_le _ _

theorem dataField_length {chunk : List Bool} (h : chunk.length ≤ 448) : (dataField chunk).length = 448 := by
  unfold dataField chunkBits
  split
  · simp
    omega
  · omega

/-- Bit n of the data field: the chunk, the marker directly after it, then zeros (R92). -/
theorem dataField_getElem? {chunk : List Bool} (h : chunk.length ≤ 448) {n : Nat} (hn : n < 448) :
    (dataField chunk)[n]? = if n < chunk.length then chunk[n]? else some (decide (n = chunk.length)) := by
  unfold dataField chunkBits
  by_cases hc : chunk.length < 448
  · rw [if_pos hc, List.append_assoc]
    by_cases h1 : n < chunk.length
    · rw [if_pos h1, List.getElem?_append_left h1]
    · rw [if_neg h1, List.getElem?_append_right (by omega)]
      by_cases h2 : n = chunk.length
      · simp [h2]
      · rw [List.getElem?_append_right (by simp; omega)]
        simp [List.getElem?_replicate, h2]
        omega
  · rw [if_neg hc, if_pos (by omega)]

theorem blockOf_length {chunk : List Bool} (h : chunk.length ≤ 448) (len : BitVec 64) :
    (blockOf chunk len).length = 512 := by
  rw [blockOf, List.length_append, be_length, dataField_length h]

/-- Bit n of a block: its data field, then be_64(L) (R92, R94). -/
theorem blockOf_getElem? {chunk : List Bool} (h : chunk.length ≤ 448) (len : BitVec 64) {n : Nat} (hn : n < 512) :
    (blockOf chunk len)[n]? =
      if n < 448 then if n < chunk.length then chunk[n]? else some (decide (n = chunk.length))
      else some (len.getLsbD (511 - n)) := by
  rw [blockOf]
  by_cases h1 : n < 448
  · rw [if_pos h1, List.getElem?_append_left (by rw [dataField_length h]; exact h1), dataField_getElem? h h1]
  · rw [if_neg h1, List.getElem?_append_right (by rw [dataField_length h]; omega), dataField_length h,
      List.getElem?_eq_getElem (by simp; omega), be_getElem, show 64 - 1 - (n - 448) = 511 - n by omega]

theorem blockBits_length (m : Memory) (len : BitVec 64) (pos : Nat) : (blockBits m len pos).length = 512 :=
  blockOf_length (by rw [memRead_length]; exact chunkLength_le _ _) len

/-- Bit n of the padder's block (R92, R94, R131). -/
theorem blockBits_getElem? (m : Memory) (len : BitVec 64) (pos : Nat) {n : Nat} (h : n < 512) :
    (blockBits m len pos)[n]? = some (
      if n < 448 then
        if n < chunkLength len.toNat pos then m.bit (pos + n) else decide (n = chunkLength len.toNat pos)
      else len.getLsbD (511 - n)) := by
  rw [blockBits, blockOf_getElem? (by rw [memRead_length]; exact chunkLength_le _ _) len h, memRead_length]
  by_cases hn : n < 448
  · by_cases hc : n < chunkLength len.toNat pos
    · simp [hn, hc, Memory.memRead]
    · simp [hn, hc]
  · simp [hn]

/-- Word i of a block, bit by bit (R64). -/
theorem wordOfBits_getLsbD (bits : List Bool) (i k : Nat) (h : 32 * i + 32 ≤ bits.length) (hk : k < 32) :
    some ((wordOfBits bits i).getLsbD (31 - k)) = bits[32 * i + k]? := by
  have hl : ((bits.drop (32 * i)).take 32).length = 32 := by simp; omega
  rw [wordOfBits, BitVec.getLsbD_ofNat, val_testBit, List.getElem?_reverse (by omega), hl, List.getElem?_take,
    List.getElem?_drop]
  have h31 : 32 - 1 - (31 - k) = k := by omega
  have hlt : 31 - k < 32 := by omega
  simp [h31, hk, hlt, List.getElem?_eq_getElem (show 32 * i + k < bits.length by omega)]

/-- The last two words of any block are the length, its more significant half first (R65, R94). -/
theorem blockOf_length_words {chunk : List Bool} (h : chunk.length ≤ 448) (len : BitVec 64) {k : Nat} (hk : k < 32) :
    (storeRead (blockWords (blockOf chunk len)) 14).getLsbD (31 - k) = len.getLsbD (63 - k) ∧
    (storeRead (blockWords (blockOf chunk len)) 15).getLsbD (31 - k) = len.getLsbD (31 - k) := by
  have hl := blockOf_length h len
  have h14 := wordOfBits_getLsbD (blockOf chunk len) 14 k (by omega) hk
  have h15 := wordOfBits_getLsbD (blockOf chunk len) 15 k (by omega) hk
  rw [blockOf_getElem? h len (by omega), if_neg (by omega)] at h14 h15
  simp only [blockWords, storeRead_ofFn _ (show 14 < 16 by decide), storeRead_ofFn _ (show 15 < 16 by decide)]
  rw [Option.some.inj h14, Option.some.inj h15, show 511 - (32 * 14 + k) = 63 - k by omega,
    show 511 - (32 * 15 + k) = 31 - k by omega]
  exact ⟨rfl, rfl⟩

/-- The sixteen words of the padder's block, bit by bit: bit n of the block is bit 31 - n mod 32 of word n / 32. -/
theorem blockWords_bit (m : Memory) (len : BitVec 64) (pos : Nat) (i k : Nat) (hi : i < 16) (hk : k < 32) :
    (storeRead (blockWords (blockBits m len pos)) i).getLsbD (31 - k) =
      if 32 * i + k < 448 then
        if 32 * i + k < chunkLength len.toNat pos then m.bit (pos + (32 * i + k))
        else decide (32 * i + k = chunkLength len.toNat pos)
      else len.getLsbD (511 - (32 * i + k)) := by
  rw [blockWords, storeRead_ofFn _ hi]
  have h := wordOfBits_getLsbD (blockBits m len pos) i k (by rw [blockBits_length]; omega) hk
  rw [blockBits_getElem? _ _ _ (by omega)] at h
  exact Option.some.inj h

/-! ## The schedule (R158 to R160) -/

theorem storeRead_loadBlock (blk : Vector Word 16) (w : Vector Word 64) {i : Nat} (h : i < 64) :
    storeRead (loadBlock blk w) i = if i < 16 then storeRead blk i else storeRead w i := by
  rw [loadBlock, storeRead_ofFn _ h]

/-- The recurrence reads only words below t. -/
theorem scheduleWord_congr {w w' : Vector Word 64} {t : Nat} (ht : 16 ≤ t)
    (h : ∀ i, i < t → storeRead w i = storeRead w' i) : scheduleWord w t = scheduleWord w' t := by
  simp only [scheduleWord]
  rw [h (t - 16) (by omega), h (t - 15) (by omega), h (t - 7) (by omega), h (t - 2) (by omega)]

/-- Putting word t in place leaves the words below it. -/
theorem expandFrom_below (w : Vector Word 64) (n : Nat) {i : Nat} (hi : i < 16 + n) (h64 : i < 64) (k : Nat) :
    storeRead (expandFrom w (n + k)) i = storeRead (expandFrom w n) i := by
  induction k with
  | zero => rfl
  | succ k ih =>
    rw [← Nat.add_assoc, expandFrom, storeRead_storeWrite _ _ _ h64, if_neg (by omega), ih]

/-- Word 16 + n of the expansion is the recurrence's value (R160). -/
theorem expandFrom_word (w : Vector Word 64) {n m : Nat} (hn : n < m) (h48 : m ≤ 48) :
    storeRead (expandFrom w m) (16 + n) = scheduleWord (expandFrom w m) (16 + n) := by
  have hval : storeRead (expandFrom w (n + 1)) (16 + n) = scheduleWord (expandFrom w n) (16 + n) := by
    rw [expandFrom, storeRead_storeWrite _ _ _ (by omega), if_pos rfl]
  obtain ⟨k, rfl⟩ : ∃ k, m = n + 1 + k := ⟨m - (n + 1), by omega⟩
  rw [expandFrom_below w (n + 1) (by omega) (by omega) k, hval]
  refine scheduleWord_congr (by omega) fun i hi => ?_
  rw [Nat.add_assoc n 1 k, expandFrom_below w n (by omega) (by omega) (1 + k)]

/-- expand(b)[t] = b[t] for t below 16 (R160). -/
theorem expand_low (b : Vector Word 16) {t : Nat} (h : t < 16) : storeRead (expand b) t = storeRead b t := by
  rw [expand, ← Nat.zero_add 48, expandFrom_below _ 0 (by omega) (by omega), expandFrom,
    storeRead_loadBlock _ _ (by omega), if_pos h]

/-- expand(b) follows the recurrence from 16 on (R160). -/
theorem expand_high (b : Vector Word 16) {t : Nat} (h16 : 16 ≤ t) (h64 : t < 64) :
    storeRead (expand b) t = scheduleWord (expand b) t := by
  obtain ⟨n, rfl⟩ : ∃ n, t = 16 + n := ⟨t - 16, by omega⟩
  exact expandFrom_word _ (by omega) (Nat.le_refl 48)

/-! ## Datapath (R150 to R156) -/

theorem add32_toNat (x y : Word) : (add32 x y).toNat = (x.toNat + y.toNat) % 2 ^ 32 := by
  simp [add32]

/-- Bit i of ROTR(x, n) is bit (i + n) mod 32 of x (R151). -/
theorem rotr_getLsbD (x : Word) {n i : Nat} (hn : n < 32) (hi : i < 32) :
    (rotr x n).getLsbD i = x.getLsbD ((i + n) % 32) := by
  rw [rotr, BitVec.getLsbD_rotateRight, Nat.mod_eq_of_lt hn]
  by_cases h : i < 32 - n
  · rw [show (i + n) % 32 = n + i by omega]
    simp [h]
  · rw [show (i + n) % 32 = i - (32 - n) by omega]
    simp [h, hi]

/-- Bit i of SHR(x, n) is bit i + n of x, zero past the top (R152). -/
theorem shr_getLsbD (x : Word) (n i : Nat) : (shr x n).getLsbD i = x.getLsbD (i + n) := by
  simp [shr, Nat.add_comm]

end Sys2Proof.Machine
end

