-- ==== Sys2Proof/Laws/State.lean ====
section
/-! SUPPORT. One lemma per field for each named update of State, so that no proof unfolds a record update; the
phase codes as numerals; and the cases of `takeTurn`. -/

namespace Sys2Proof.Machine

/-! ## The phase codes (R30) -/

@[simp] theorem phase_idle : Phase.idle = 0#4 := rfl
@[simp] theorem phase_init : Phase.init = 1#4 := rfl
@[simp] theorem phase_pad : Phase.pad = 2#4 := rfl
@[simp] theorem phase_wload : Phase.wload = 3#4 := rfl
@[simp] theorem phase_wexp : Phase.wexp = 4#4 := rfl
@[simp] theorem phase_cload : Phase.cload = 5#4 := rfl
@[simp] theorem phase_round : Phase.round = 6#4 := rfl
@[simp] theorem phase_feed : Phase.feed = 7#4 := rfl
@[simp] theorem phase_done : Phase.done = 8#4 := rfl

/-! ## applyReset (R260) -/

@[simp] theorem applyReset_hs (s : State) : (applyReset s).hs = Config.resetHs s.draws := rfl
@[simp] theorem applyReset_wv (s : State) : (applyReset s).wv = Config.resetWv s.draws := rfl
@[simp] theorem applyReset_blk (s : State) : (applyReset s).blk = Config.resetBlk s.draws := rfl
@[simp] theorem applyReset_w (s : State) : (applyReset s).w = Config.resetW s.draws := rfl
@[simp] theorem applyReset_msgLen (s : State) : (applyReset s).msgLen = Config.resetMsgLen s.draws := rfl
@[simp] theorem applyReset_pos (s : State) : (applyReset s).pos = Config.resetPos s.draws := rfl
@[simp] theorem applyReset_t (s : State) : (applyReset s).t = Config.resetT s.draws := rfl
@[simp] theorem applyReset_phase (s : State) : (applyReset s).phase = Phase.idle := rfl
@[simp] theorem applyReset_msg (s : State) : (applyReset s).msg = s.msg := rfl
@[simp] theorem applyReset_agenda (s : State) : (applyReset s).agenda = s.agenda := rfl
@[simp] theorem applyReset_reply (s : State) : (applyReset s).reply = s.reply := rfl
@[simp] theorem applyReset_draws (s : State) : (applyReset s).draws = s.draws + 1 := rfl

/-! ## positionAt (R34) -/

@[simp] theorem positionAt_hs (c : BitVec 4) (s : State) : (positionAt c s).hs = s.hs := rfl
@[simp] theorem positionAt_wv (c : BitVec 4) (s : State) : (positionAt c s).wv = s.wv := rfl
@[simp] theorem positionAt_blk (c : BitVec 4) (s : State) : (positionAt c s).blk = s.blk := rfl
@[simp] theorem positionAt_w (c : BitVec 4) (s : State) : (positionAt c s).w = s.w := rfl
@[simp] theorem positionAt_msgLen (c : BitVec 4) (s : State) : (positionAt c s).msgLen = s.msgLen := rfl
@[simp] theorem positionAt_phase (c : BitVec 4) (s : State) : (positionAt c s).phase = c := rfl
@[simp] theorem positionAt_msg (c : BitVec 4) (s : State) : (positionAt c s).msg = s.msg := rfl
@[simp] theorem positionAt_agenda (c : BitVec 4) (s : State) : (positionAt c s).agenda = s.agenda := rfl
@[simp] theorem positionAt_reply (c : BitVec 4) (s : State) : (positionAt c s).reply = s.reply := rfl
@[simp] theorem positionAt_draws (c : BitVec 4) (s : State) : (positionAt c s).draws = s.draws := rfl

/-! ## takeTurn: only the agenda changes (R12) -/

theorem takeTurn_of_nil {s : State} (h : s.agenda = []) : takeTurn s = (.seq, s) := by
  simp [takeTurn, h]

theorem takeTurn_of_cons {s : State} {turn : Turn} {rest : List Turn} (h : s.agenda = turn :: rest) :
    takeTurn s = (turn, { s with agenda := rest }) := by
  simp [takeTurn, h]

/-- Taking a turn drops the first planned turn, if there is one, and changes nothing else. -/
theorem takeTurn_state (s : State) : (takeTurn s).2 = { s with agenda := s.agenda.tail } := by
  cases s with
  | mk hs wv blk w msgLen pos t phase msg agenda reply draws => cases agenda <;> rfl

@[simp] theorem takeTurn_hs (s : State) : (takeTurn s).2.hs = s.hs := by rw [takeTurn_state]
@[simp] theorem takeTurn_wv (s : State) : (takeTurn s).2.wv = s.wv := by rw [takeTurn_state]
@[simp] theorem takeTurn_blk (s : State) : (takeTurn s).2.blk = s.blk := by rw [takeTurn_state]
@[simp] theorem takeTurn_w (s : State) : (takeTurn s).2.w = s.w := by rw [takeTurn_state]
@[simp] theorem takeTurn_msgLen (s : State) : (takeTurn s).2.msgLen = s.msgLen := by rw [takeTurn_state]
@[simp] theorem takeTurn_pos (s : State) : (takeTurn s).2.pos = s.pos := by rw [takeTurn_state]
@[simp] theorem takeTurn_t (s : State) : (takeTurn s).2.t = s.t := by rw [takeTurn_state]
@[simp] theorem takeTurn_phase (s : State) : (takeTurn s).2.phase = s.phase := by rw [takeTurn_state]
@[simp] theorem takeTurn_msg (s : State) : (takeTurn s).2.msg = s.msg := by rw [takeTurn_state]
@[simp] theorem takeTurn_reply (s : State) : (takeTurn s).2.reply = s.reply := by rw [takeTurn_state]
@[simp] theorem takeTurn_draws (s : State) : (takeTurn s).2.draws = s.draws := by rw [takeTurn_state]
@[simp] theorem takeTurn_agenda (s : State) : (takeTurn s).2.agenda = s.agenda.tail := by rw [takeTurn_state]

end Sys2Proof.Machine
end

