-- ==== Sys2Proof/Laws/Exec.lean ====
section
/-! SUPPORT. What each meaning, each turn and a step can do, said once: the inversion lemmas later proofs cite. -/

namespace Sys2Proof.Machine

/-! ## The decoders (R100, R101) -/

/-- Every PHASE code and what it decodes to (R100, R104). -/
theorem decodeS_cases (p : BitVec 4) :
    (p = Phase.idle ∧ decodeS p = .ok .idle) ∨ (p = Phase.init ∧ decodeS p = .ok .init) ∨
    (p = Phase.pad ∧ decodeS p = .ok .pad) ∨ (p = Phase.wload ∧ decodeS p = .ok .wload) ∨
    (p = Phase.wexp ∧ decodeS p = .ok .wexp) ∨ (p = Phase.cload ∧ decodeS p = .ok .cload) ∨
    (p = Phase.round ∧ decodeS p = .ok .round) ∨ (p = Phase.feed ∧ decodeS p = .ok .feed) ∨
    (p = Phase.done ∧ decodeS p = .ok .done) ∨ (9 ≤ p.toNat ∧ decodeS p = .error .reservedPhase) := by
  revert p
  decide

/-- A host access decodes to one of the five rows of format HA, or to no row (R101). -/
theorem decodeAccess_ok {write : Bool} {reg : Nat} {data : BitVec 256} {i : Instr}
    (h : decodeAccess write reg data = .ok i) :
    (write = true ∧ reg = 0 ∧ data.getLsbD 0 = true ∧ i = .start (data.setWidth 32)) ∨
    (write = false ∧ reg = 1 ∧ i = .rdstatus) ∨ (write = true ∧ reg = 2 ∧ i = .wrlen (data.setWidth 64)) ∨
    (write = false ∧ reg = 2 ∧ i = .rdlen) ∨ (write = false ∧ reg = 3 ∧ i = .rddigest) := by
  unfold decodeAccess at h
  split at h
  · rename_i hreg
    have hr : reg = 0 ∨ reg = 1 ∨ reg = 2 ∨ reg = 3 := by omega
    rcases hr with rfl | rfl | rfl | rfl <;> cases write <;> simp [decodeHA] at h ⊢ <;> grind
  · cases h

/-! ## The meanings of SEQ's operations -/

@[simp] theorem execIdle_eq (s : State) : execIdle s = .next s := rfl

@[simp] theorem execDone_eq (s : State) : execDone s = .next s := rfl

@[simp] theorem execInit_eq (s : State) :
    execInit s = .next { s with hs := h0, pos := 0#64, phase := Phase.pad } := rfl

/-! PAD (R131) -/

@[simp] theorem execPad_eq (s : State) : execPad s = .next (padNext s) := rfl

@[simp] theorem padNext_hs (s : State) : (padNext s).hs = s.hs := rfl
@[simp] theorem padNext_wv (s : State) : (padNext s).wv = s.wv := rfl
@[simp] theorem padNext_w (s : State) : (padNext s).w = s.w := rfl
@[simp] theorem padNext_msgLen (s : State) : (padNext s).msgLen = s.msgLen := rfl
@[simp] theorem padNext_t (s : State) : (padNext s).t = s.t := rfl
@[simp] theorem padNext_msg (s : State) : (padNext s).msg = s.msg := rfl
@[simp] theorem padNext_agenda (s : State) : (padNext s).agenda = s.agenda := rfl
@[simp] theorem padNext_reply (s : State) : (padNext s).reply = s.reply := rfl
@[simp] theorem padNext_phase (s : State) : (padNext s).phase = Phase.wload := rfl

theorem padNext_draws_of_le {s : State} (h : s.pos.toNat ≤ s.msgLen.toNat) : (padNext s).draws = s.draws :=
  if_neg (by omega)

theorem padNext_blk_of_le {s : State} (h : s.pos.toNat ≤ s.msgLen.toNat) :
    (padNext s).blk = blockWords (blockBits s.msg s.msgLen s.pos.toNat) := by
  simp only [padNext, padChunk_of_le s.msg h, blockBits]

/-- PAD's addition does not wrap: "POS + c does not overflow 64 bits" (R131). -/
theorem padNext_pos {s : State} (h : s.pos.toNat ≤ s.msgLen.toNat) :
    (padNext s).pos.toNat = s.pos.toNat + min 448 (s.msgLen.toNat - s.pos.toNat) := by
  have hL := s.msgLen.isLt
  simp only [padNext, padChunk_of_le s.msg h, memRead_length, chunkLength, chunkBits, BitVec.toNat_add,
    BitVec.toNat_ofNat]
  omega

/-- WLOAD's next state (R158). -/
theorem execWload_eq (s : State) :
    execWload s = .next { s with w := loadBlock s.blk s.w, t := 16#7, phase := Phase.wexp } := rfl

/-! WEXP (R159) -/

@[simp] theorem execWexp_eq (s : State) : execWexp s = .next (wexpNext s) := rfl

@[simp] theorem wexpNext_hs (s : State) : (wexpNext s).hs = s.hs := rfl
@[simp] theorem wexpNext_wv (s : State) : (wexpNext s).wv = s.wv := rfl
@[simp] theorem wexpNext_blk (s : State) : (wexpNext s).blk = s.blk := rfl
@[simp] theorem wexpNext_msgLen (s : State) : (wexpNext s).msgLen = s.msgLen := rfl
@[simp] theorem wexpNext_pos (s : State) : (wexpNext s).pos = s.pos := rfl
@[simp] theorem wexpNext_msg (s : State) : (wexpNext s).msg = s.msg := rfl
@[simp] theorem wexpNext_agenda (s : State) : (wexpNext s).agenda = s.agenda := rfl
@[simp] theorem wexpNext_reply (s : State) : (wexpNext s).reply = s.reply := rfl
@[simp] theorem wexpNext_t (s : State) : (wexpNext s).t = s.t + 1#7 := rfl

theorem wexpNext_draws_of_le {s : State} (h : 16 ≤ s.t.toNat) : (wexpNext s).draws = s.draws := if_neg (by omega)

theorem wexpNext_w_of_le {s : State} (h : 16 ≤ s.t.toNat) :
    (wexpNext s).w = storeWrite s.w s.t.toNat (scheduleWord s.w s.t.toNat) := by
  simp only [wexpNext, wexpWord, if_neg (show ¬ s.t.toNat < 16 by omega)]

/-- WEXP writes no word but W[T], whatever T is. -/
theorem wexpNext_w_other (s : State) {i : Nat} (hi : i < 64) (h : i ≠ s.t.toNat) :
    storeRead (wexpNext s).w i = storeRead s.w i := by
  simp only [wexpNext]
  rw [storeRead_storeWrite _ _ _ hi, if_neg h]

/-- CLOAD's next state (R177). -/
theorem execCload_eq (s : State) : execCload s = .next { s with wv := s.hs, t := 0#7, phase := Phase.round } := rfl

/-! ROUND (R178) -/

@[simp] theorem execRound_eq (s : State) : execRound s = .next (roundNext s) := rfl

@[simp] theorem roundNext_hs (s : State) : (roundNext s).hs = s.hs := rfl
@[simp] theorem roundNext_blk (s : State) : (roundNext s).blk = s.blk := rfl
@[simp] theorem roundNext_w (s : State) : (roundNext s).w = s.w := rfl
@[simp] theorem roundNext_msgLen (s : State) : (roundNext s).msgLen = s.msgLen := rfl
@[simp] theorem roundNext_pos (s : State) : (roundNext s).pos = s.pos := rfl
@[simp] theorem roundNext_msg (s : State) : (roundNext s).msg = s.msg := rfl
@[simp] theorem roundNext_agenda (s : State) : (roundNext s).agenda = s.agenda := rfl
@[simp] theorem roundNext_reply (s : State) : (roundNext s).reply = s.reply := rfl
@[simp] theorem roundNext_t (s : State) : (roundNext s).t = s.t + 1#7 := rfl

theorem roundNext_draws_of_le {s : State} (h : s.t.toNat ≤ 63) : (roundNext s).draws = s.draws := if_neg (by omega)

theorem roundNext_wv_of_le {s : State} (h : s.t.toNat ≤ 63) :
    (roundNext s).wv = roundWords s.wv (kAt s.t.toNat) (storeRead s.w s.t.toNat) := if_neg (by omega)

/-! FEED (R179) -/

theorem execFeed_eq (s : State) : execFeed s = .next (feedNext s) := rfl

@[simp] theorem feedNext_wv (s : State) : (feedNext s).wv = s.wv := rfl
@[simp] theorem feedNext_blk (s : State) : (feedNext s).blk = s.blk := rfl
@[simp] theorem feedNext_w (s : State) : (feedNext s).w = s.w := rfl
@[simp] theorem feedNext_msgLen (s : State) : (feedNext s).msgLen = s.msgLen := rfl
@[simp] theorem feedNext_pos (s : State) : (feedNext s).pos = s.pos := rfl
@[simp] theorem feedNext_t (s : State) : (feedNext s).t = s.t := rfl
@[simp] theorem feedNext_msg (s : State) : (feedNext s).msg = s.msg := rfl
@[simp] theorem feedNext_agenda (s : State) : (feedNext s).agenda = s.agenda := rfl
@[simp] theorem feedNext_reply (s : State) : (feedNext s).reply = s.reply := rfl
@[simp] theorem feedNext_draws (s : State) : (feedNext s).draws = s.draws := rfl
@[simp] theorem feedNext_hs (s : State) : (feedNext s).hs = feedForward s.hs s.wv := rfl

/-- T does not pass 64: T + 1 does not wrap where T is at most 63 (R29). -/
theorem t_succ_toNat {t : BitVec 7} (h : t.toNat ≤ 63) : (t + 1#7).toNat = t.toNat + 1 := by
  simp only [BitVec.toNat_add, BitVec.toNat_ofNat]
  omega

/-! ## The turns -/

/-- What SEQ's turn does, phase by phase; it never stops (R201, R230). -/
theorem seqTurn_next (s : State) :
    ∃ u, seqTurn s = .next u ∧
      ((s.phase = Phase.idle ∧ u = s) ∨ (s.phase = Phase.done ∧ u = s) ∨ (9 ≤ s.phase.toNat ∧ u = s) ∨
        (s.phase = Phase.init ∧ u = { s with hs := h0, pos := 0#64, phase := Phase.pad }) ∨
        (s.phase = Phase.pad ∧ u = padNext s) ∨
        (s.phase = Phase.wload ∧ u = { s with w := loadBlock s.blk s.w, t := 16#7, phase := Phase.wexp }) ∨
        (s.phase = Phase.wexp ∧ u = wexpNext s) ∨
        (s.phase = Phase.cload ∧ u = { s with wv := s.hs, t := 0#7, phase := Phase.round }) ∨
        (s.phase = Phase.round ∧ u = roundNext s) ∨
        (s.phase = Phase.feed ∧ u = feedNext s)) := by
  unfold seqTurn
  rcases decodeS_cases s.phase with ⟨hp, hd⟩ | ⟨hp, hd⟩ | ⟨hp, hd⟩ | ⟨hp, hd⟩ | ⟨hp, hd⟩ | ⟨hp, hd⟩ | ⟨hp, hd⟩ |
    ⟨hp, hd⟩ | ⟨hp, hd⟩ | ⟨hp, hd⟩ <;> rw [hd]
  · exact ⟨_, rfl, .inl ⟨hp, rfl⟩⟩
  · exact ⟨_, rfl, .inr (.inr (.inr (.inl ⟨hp, rfl⟩)))⟩
  · exact ⟨_, rfl, .inr (.inr (.inr (.inr (.inl ⟨hp, rfl⟩))))⟩
  · exact ⟨_, rfl, .inr (.inr (.inr (.inr (.inr (.inl ⟨hp, rfl⟩)))))⟩
  · exact ⟨_, rfl, .inr (.inr (.inr (.inr (.inr (.inr (.inl ⟨hp, rfl⟩))))))⟩
  · exact ⟨_, rfl, .inr (.inr (.inr (.inr (.inr (.inr (.inr (.inl ⟨hp, rfl⟩)))))))⟩
  · exact ⟨_, rfl, .inr (.inr (.inr (.inr (.inr (.inr (.inr (.inr (.inl ⟨hp, rfl⟩))))))))⟩
  · exact ⟨_, rfl, .inr (.inr (.inr (.inr (.inr (.inr (.inr (.inr (.inr (⟨hp, rfl⟩)))))))))⟩
  · exact ⟨_, rfl, .inr (.inl ⟨hp, rfl⟩)⟩
  · exact ⟨_, rfl, .inr (.inr (.inl ⟨hp, rfl⟩))⟩

/-- What the host's register access does: nothing, a START or WRLEN in IDLE or DONE, or a value returned (R203, R206 to
R210). It never stops (R232). -/
theorem hostTurn_next (access : HostAccess) (s : State) :
    ∃ u, hostTurn access s = .next u ∧
      (u = s ∨ (s.accepts = true ∧ access.write = true ∧ access.reg = 0 ∧ access.data.getLsbD 0 = true ∧
          u = { s with phase := Phase.init }) ∨
        (s.accepts = true ∧ access.write = true ∧ access.reg = 2 ∧
          u = { s with msgLen := access.data.setWidth 64 }) ∨
        (access.write = false ∧ ∃ r d, u = { s with reply := r, draws := d })) := by
  unfold hostTurn
  cases hd : decodeAccess access.write access.reg access.data with
  | error e =>
    simp only [reservedAccess]
    by_cases hw : access.write = true
    · exact ⟨s, by simp [hw], .inl rfl⟩
    · exact ⟨_, by simp only [hw]; rfl, .inr (.inr (.inr ⟨by simpa using hw, .word 0#32, s.draws, rfl⟩))⟩
  | ok i =>
    rcases decodeAccess_ok hd with ⟨hw, hr, hb, rfl⟩ | ⟨hw, hr, rfl⟩ | ⟨hw, hr, rfl⟩ | ⟨hw, hr, rfl⟩ | ⟨hw, hr, rfl⟩
    · simp only [exec, execStart]
      by_cases ha : s.accepts = true
      · refine ⟨_, ?_, .inr (.inl ⟨ha, hw, hr, hb, rfl⟩)⟩
        simp [ha, hb]
      · exact ⟨s, by simp [ha], .inl rfl⟩
    · exact ⟨_, rfl, .inr (.inr (.inr ⟨hw, _, _, rfl⟩))⟩
    · simp only [exec, execWrlen]
      by_cases ha : s.accepts = true
      · refine ⟨_, ?_, .inr (.inr (.inl ⟨ha, hw, hr, rfl⟩))⟩
        simp [ha]
      · exact ⟨s, by simp [ha], .inl rfl⟩
    · exact ⟨_, rfl, .inr (.inr (.inr ⟨hw, _, _, rfl⟩))⟩
    · simp only [exec, execRddigest]
      by_cases hd : s.isDone = true
      · exact ⟨_, by rw [if_pos hd], .inr (.inr (.inr ⟨hw, _, s.draws, rfl⟩))⟩
      · exact ⟨_, by rw [if_neg hd], .inr (.inr (.inr ⟨hw, _, _, rfl⟩))⟩

/-- What presenting an octet of MSG does (R264, 93 U5). -/
theorem messageTurn_next {octet : BitVec 61} {value : Byte} {s u : State}
    (h : messageTurn octet value s = .next u) :
    s.busy = false ∧ u = { s with msg := s.msg.write octet.toNat value } := by
  unfold messageTurn at h
  split at h
  · cases h
  · rename_i hb
    cases h
    exact ⟨by simpa using hb, rfl⟩

/-- A turn answers a next state, but for a message turn while BUSY (R230; logs 6, 21). -/
theorem runTurn_total (turn : Turn) (s : State) :
    (∃ u, runTurn turn s = .next u) ∨
    (s.busy = true ∧ (∃ a v, turn = .message a v) ∧ runTurn turn s = .refused .messageChangedWhileBusy) := by
  cases turn with
  | seq =>
    obtain ⟨u, hu, _⟩ := seqTurn_next s
    exact .inl ⟨u, hu⟩
  | host access =>
    obtain ⟨u, hu, _⟩ := hostTurn_next access s
    exact .inl ⟨u, hu⟩
  | message a v =>
    cases hb : s.busy with
    | false => exact .inl ⟨_, by simp only [runTurn, messageTurn, hb]; rfl⟩
    | true => exact .inr ⟨rfl, ⟨a, v, rfl⟩, by simp [runTurn, messageTurn, hb]⟩
  | reset => exact .inl ⟨_, rfl⟩

/-! ## A step (R12, R18) -/

theorem step_of_seq {s : State} (h : (takeTurn s).1 = .seq) : step s = seqTurn (takeTurn s).2 := by
  simp [step, h, runTurn]

theorem step_of_nil {s : State} (h : s.agenda = []) : step s = seqTurn s := by
  simp [step, takeTurn_of_nil h, runTurn]

theorem step_of_cons {s : State} {turn : Turn} {rest : List Turn} (h : s.agenda = turn :: rest) :
    step s = runTurn turn { s with agenda := rest } := by
  simp [step, takeTurn_of_cons h]

end Sys2Proof.Machine
end

