-- ==== Sys2Proof/Laws/Memory.lean ====
section
/-! SUPPORT. The laws of the message space: a read after a write, and every operation keeps the canonical form. -/

namespace Sys2Proof.Machine

theorem readCells_nil (a : Nat) : readCells [] a = unlistedOctet := rfl

theorem readCells_cons (k : Nat) (v : Byte) (rest : List Host.Cell) (a : Nat) :
    readCells ((k, v) :: rest) a = if k = a then v else readCells rest a := rfl

/-- A canonical list from `lo` on lists nothing below `lo`. -/
theorem readCells_below {lo : Nat} {cells : List Host.Cell} (h : cellsWf lo cells = true) {a : Nat} (ha : a < lo) :
    readCells cells a = unlistedOctet := by
  induction cells generalizing lo with
  | nil => rfl
  | cons cell rest ih =>
    obtain ⟨k, v⟩ := cell
    simp only [cellsWf, Bool.and_eq_true, decide_eq_true_eq] at h
    obtain ⟨⟨⟨hlo, _⟩, _⟩, hrest⟩ := h
    rw [readCells_cons, if_neg (by omega)]
    exact ih hrest (by omega)

theorem cellsWf_mono {lo lo' : Nat} {cells : List Host.Cell} (h : cellsWf lo cells = true) (hlo : lo' ≤ lo) :
    cellsWf lo' cells = true := by
  cases cells with
  | nil => rfl
  | cons cell rest =>
    simp only [cellsWf, Bool.and_eq_true, decide_eq_true_eq] at h ⊢
    exact ⟨⟨⟨by omega, h.1.1.2⟩, h.1.2⟩, h.2⟩

theorem readCells_writeCells {lo : Nat} {cells : List Host.Cell} (h : cellsWf lo cells = true) (a : Nat) (v : Byte)
    (b : Nat) : readCells (writeCells cells a v) b = if b = a then v else readCells cells b := by
  induction cells generalizing lo with
  | nil =>
    by_cases hv : v = unlistedOctet
    · simp [writeCells, hv, readCells]
    · simp only [writeCells, hv, if_false, readCells_cons, readCells_nil, eq_comm (a := a)]
  | cons cell rest ih =>
    obtain ⟨k, u⟩ := cell
    simp only [cellsWf, Bool.and_eq_true, decide_eq_true_eq] at h
    obtain ⟨⟨⟨_, _⟩, _⟩, hrest⟩ := h
    by_cases hka : k < a
    · simp only [writeCells, hka, if_true, readCells_cons, ih hrest]
      by_cases hkb : k = b
      · have : b ≠ a := by omega
        simp [hkb, this]
      · simp [hkb]
    · have hbelow : ∀ x, x < k + 1 → readCells rest x = unlistedOctet := fun x hx => readCells_below hrest hx
      by_cases hk : k = a
      · subst hk
        by_cases hv : v = unlistedOctet
        · by_cases hb : b = k
          · simp [writeCells, hv, hb, hbelow k (by omega)]
          · simp [writeCells, hv, hb, readCells_cons, Ne.symm hb]
        · by_cases hb : b = k
          · simp [writeCells, hv, hb, readCells_cons]
          · simp [writeCells, hv, hb, readCells_cons, Ne.symm hb]
      · by_cases hv : v = unlistedOctet
        · by_cases hb : b = a
          · have h1 : k ≠ a := hk
            simp [writeCells, hka, hk, hv, hb, readCells_cons, hbelow a (by omega)]
          · simp [writeCells, hka, hk, hv, hb]
        · by_cases hb : b = a
          · simp [writeCells, hka, hk, hv, hb, readCells_cons]
          · simp [writeCells, hka, hk, hv, hb, readCells_cons, Ne.symm hb]

theorem cellsWf_writeCells {lo : Nat} {cells : List Host.Cell} (h : cellsWf lo cells = true) {a : Nat} (hlo : lo ≤ a)
    (ha : a < 2 ^ 61) (v : Byte) : cellsWf lo (writeCells cells a v) = true := by
  induction cells generalizing lo with
  | nil =>
    by_cases hv : v = unlistedOctet
    · simp [writeCells, hv, cellsWf]
    · simp only [writeCells, hv, if_false, cellsWf, Bool.and_eq_true, decide_eq_true_eq]
      exact ⟨⟨⟨hlo, ha⟩, hv⟩, trivial⟩
  | cons cell rest ih =>
    obtain ⟨k, u⟩ := cell
    have hall := h
    simp only [cellsWf, Bool.and_eq_true, decide_eq_true_eq] at h
    obtain ⟨⟨⟨hk, hk61⟩, hu⟩, hrest⟩ := h
    by_cases hka : k < a
    · simp only [writeCells, hka, if_true, cellsWf, Bool.and_eq_true, decide_eq_true_eq]
      exact ⟨⟨⟨hk, hk61⟩, hu⟩, ih hrest (by omega)⟩
    · have htail : cellsWf lo (if k = a then rest else (k, u) :: rest) = true := by
        split
        · exact cellsWf_mono hrest (by omega)
        · exact hall
      by_cases hv : v = unlistedOctet
      · simp only [writeCells, hka, if_false, hv, if_true]
        exact htail
      · simp only [writeCells, hka, if_false, hv]
        simp only [cellsWf, Bool.and_eq_true, decide_eq_true_eq]
        refine ⟨⟨⟨hlo, ha⟩, hv⟩, ?_⟩
        split
        · rename_i hk'
          exact hk' ▸ hrest
        · simp only [cellsWf, Bool.and_eq_true, decide_eq_true_eq]
          exact ⟨⟨⟨by omega, hk61⟩, hu⟩, hrest⟩

/-- Reading after a write: the octet written, and every other octet as before. -/
theorem Memory.read_write {m : Memory} (h : m.wf = true) (a : Nat) (v : Byte) (b : Nat) :
    (m.write a v).read b = if b = a then v else m.read b :=
  readCells_writeCells h a v b

/-- A write keeps the canonical form (log 5). -/
theorem Memory.wf_write {m : Memory} (h : m.wf = true) {a : Nat} (ha : a < 2 ^ 61) (v : Byte) :
    (m.write a v).wf = true :=
  cellsWf_writeCells h (Nat.zero_le a) ha v

/-- Placing a list of octets keeps the canonical form. -/
theorem placeOctets_wf {m : Memory} (h : m.wf = true) (a : Nat) (vs : List Byte) (hfit : a + vs.length ≤ 2 ^ 61) :
    (placeOctets m a vs).wf = true := by
  induction vs generalizing m a with
  | nil => exact h
  | cons v vs ih =>
    simp only [List.length_cons] at hfit
    exact ih (Memory.wf_write h (by omega) v) (a + 1) (by omega)

/-- Reset's message space has the canonical form. -/
theorem reset_msg_wf : State.reset.msg.wf = true := rfl

theorem cells_ext {lo : Nat} {xs ys : List Host.Cell} (hx : cellsWf lo xs = true) (hy : cellsWf lo ys = true)
    (h : ∀ a, readCells xs a = readCells ys a) : xs = ys := by
  induction xs generalizing lo ys with
  | nil =>
    cases ys with
    | nil => rfl
    | cons cell rest =>
      obtain ⟨k, v⟩ := cell
      have := h k
      simp only [readCells_nil, readCells_cons, if_true] at this
      simp [cellsWf, this.symm] at hy
  | cons cell rest ih =>
    obtain ⟨k, v⟩ := cell
    cases ys with
    | nil =>
      have := h k
      simp only [readCells_nil, readCells_cons, if_true] at this
      simp [cellsWf, this] at hx
    | cons cell' rest' =>
      obtain ⟨k', v'⟩ := cell'
      simp only [cellsWf, Bool.and_eq_true, decide_eq_true_eq] at hx hy
      obtain ⟨⟨⟨_, _⟩, hv⟩, hr⟩ := hx
      obtain ⟨⟨⟨_, _⟩, hv'⟩, hr'⟩ := hy
      have hk : k = k' := by
        rcases Nat.lt_trichotomy k k' with hlt | heq | hgt
        · have := h k
          rw [readCells_cons, if_pos rfl, readCells_cons, if_neg (by omega), readCells_below hr' (by omega)] at this
          exact absurd this hv
        · exact heq
        · have := h k'
          rw [readCells_cons, if_neg (by omega), readCells_below hr (by omega), readCells_cons, if_pos rfl] at this
          exact absurd this.symm hv'
      subst hk
      have hvv : v = v' := by simpa [readCells_cons] using h k
      subst hvv
      have : rest = rest' := ih hr hr' fun a => by
        by_cases ha : a < k + 1
        · rw [readCells_below hr ha, readCells_below hr' ha]
        · simpa [readCells_cons, show k ≠ a by omega] using h a
      rw [this]

/-- Equal memories are equal data: canonical memories that read alike at every octet are the same. -/
theorem Memory.ext_of_read {m m' : Memory} (h : m.wf = true) (h' : m'.wf = true) (hr : ∀ a, m.read a = m'.read a) :
    m = m' := by
  cases m
  cases m'
  exact congrArg Memory.mk (cells_ext h h' hr)

end Sys2Proof.Machine
end

