-- ==== Sys2Proof/Laws/PerInstr.lean ====
section
/-! SUPPORT. The family `EncodedLength`: for each operation, the bytes of its encoding are its code and the data bytes
its selector announces. One lemma per constructor. -/

namespace Sys2Proof.Laws.EncodedLength

/-- A format S operation is one byte with a code of at most 8 (R100); a format HA operation is its selector and
`dataBytes` bytes of data (R99, R101; log 8). -/
def Statement (i : Instr) : Prop :=
  match i.format with
  | .s => encode i = [BitVec.ofNat 8 i.code] ∧ i.code ≤ 8
  | .ha => (encode i).head? = some (BitVec.ofNat 8 i.code) ∧ i.code < 8 ∧
      (encode i).length = 1 + dataBytes (BitVec.ofNat 3 i.code)

theorem idle : Statement .idle := ⟨rfl, by decide⟩
theorem init : Statement .init := ⟨rfl, by decide⟩
theorem pad : Statement .pad := ⟨rfl, by decide⟩
theorem wload : Statement .wload := ⟨rfl, by decide⟩
theorem wexp : Statement .wexp := ⟨rfl, by decide⟩
theorem cload : Statement .cload := ⟨rfl, by decide⟩
theorem round : Statement .round := ⟨rfl, by decide⟩
theorem feed : Statement .feed := ⟨rfl, by decide⟩
theorem done : Statement .done := ⟨rfl, by decide⟩
theorem start (data : BitVec 32) : Statement (.start data) := ⟨rfl, by simp [Instr.code], rfl⟩
theorem rdstatus : Statement .rdstatus := ⟨rfl, by decide, rfl⟩
theorem wrlen (data : BitVec 64) : Statement (.wrlen data) := ⟨rfl, by simp [Instr.code], rfl⟩
theorem rdlen : Statement .rdlen := ⟨rfl, by decide, rfl⟩
theorem rddigest : Statement .rddigest := ⟨rfl, by decide, rfl⟩

end Sys2Proof.Laws.EncodedLength
end

