-- ==== Sys2Proof/Laws/Run.lean ====
section
/-! SUPPORT. Runs of several steps: the host's `run` taken one step, and one stretch, at a time. -/

namespace Sys2Proof.Machine

/-- A run whose first step answers a next state goes on from there, on any machine of the host's interface. -/
theorem run_of_step (M : Host.Core) {s u : M.State} (h : M.step s = .next u) (k : Nat) :
    M.run (k + 1) s = M.run k u := by
  rw [Host.Core.run, h]

/-- What a run that answers a next state did first, on any machine of the host's interface. -/
theorem step_of_run (M : Host.Core) {s v : M.State} {k : Nat} (h : M.run (k + 1) s = .next v) :
    ∃ u, M.step s = .next u ∧ M.run k u = .next v := by
  rw [Host.Core.run] at h
  split at h
  · rename_i u hu
    exact ⟨u, hu, h⟩
  · cases h
  · cases h

theorem run_zero (s : State) : Sys2Proof.core.run 0 s = .next s := rfl

theorem run_succ {s u : State} (h : step s = .next u) (k : Nat) :
    Sys2Proof.core.run (k + 1) s = Sys2Proof.core.run k u :=
  run_of_step Sys2Proof.core h k

theorem run_succ_next {s v : State} {k : Nat} (h : Sys2Proof.core.run (k + 1) s = .next v) :
    ∃ u : State, step s = .next u ∧ Sys2Proof.core.run k u = .next v :=
  step_of_run Sys2Proof.core h

/-- A run of j + k steps is a run of k steps from where j steps lead. -/
theorem run_add {s u : State} {j : Nat} (k : Nat) (h : Sys2Proof.core.run j s = .next u) :
    Sys2Proof.core.run (j + k) s = Sys2Proof.core.run k u := by
  induction j generalizing s with
  | zero =>
    cases h
    rw [Nat.zero_add]
  | succ j ih =>
    obtain ⟨w, hw, hr⟩ := run_succ_next h
    rw [show j + 1 + k = (j + k) + 1 by omega, run_succ hw]
    exact ih hr

end Sys2Proof.Machine
end

