-- ==== Sys2Proof/Tests/Slice0.lean ====
section
/-! SUPPORT. The writer's own checks: expected values are taken from the spec (the encodings of R100 and R101, the
examples of the rules, 95_test_vectors.md); and, for every statement with hypotheses, a witness that meets them. -/

set_option maxRecDepth 100000

namespace Sys2Proof.Tests

open Sys2Proof Sys2Proof.Machine Sys2Proof.Safety

/-! ## Helpers -/

/-- A state in IDLE with the initial hash in both register files and zeros elsewhere. -/
def base : State where
  hs     := h0
  wv     := h0
  blk    := Vector.replicate 16 0#32
  w      := Vector.replicate 64 0#32
  msgLen := 0#64
  pos    := 0#64
  t      := 0#7
  phase  := 0#4
  msg    := ⟨[]⟩
  agenda := []
  reply  := .silent
  draws  := 0

/-- `base` in another phase. -/
def inPhase (p : BitVec 4) : State := { base with phase := p }

/-- The message of V3: "abc", 24 bits. -/
def abc : Memory := textMessage [0x61, 0x62, 0x63]

/-- `base` in another phase, with the message of V3 presented and its length written. -/
def abcIn (p : BitVec 4) : State := { base with phase := p, msg := abc, msgLen := 24#64 }

/-- What holds of the state an outcome answers, if it answers one. -/
def after {α : Type} (o : Host.Outcome State Fault Refusal) (f : State → α) : Option α :=
  match o with
  | .next s => some (f s)
  | .fault _ => none
  | .refused _ => none

def refusalOf (o : Host.Outcome State Fault Refusal) : Option Refusal :=
  match o with
  | .next _ => none
  | .fault _ => none
  | .refused r => some r

/-- The operation a byte list decodes to and the bytes after it; `Except` has no decidable equality to lean on. -/
def decoded (o : Except DecodeError (Instr × List Byte)) : Option (Instr × List Byte) :=
  match o with
  | .ok x => some x
  | .error _ => none

def decodeFault {α : Type} (o : Except DecodeError α) : Option DecodeError :=
  match o with
  | .ok _ => none
  | .error e => some e

/-! ## WellFormed -/

/-- R101, R105: a CTRL write with data[0] = 0 is not a START, whatever its other bits. -/
theorem test_start_without_bit0_is_ill_formed :
    (Instr.start 0x00000000#32).wellFormed = false ∧ (Instr.start 0xFFFFFFFE#32).wellFormed = false := by decide

theorem test_well_formed_start_and_wrlen :
    (Instr.start 0x00000001#32).wellFormed = true ∧ (Instr.wrlen 0xFFFFFFFFFFFFFFFF#64).wellFormed = true := by decide

/-! ## Decode: words written out from R100 and R101 -/

theorem test_decode_sequencer_words :
    decoded (decode .s [0b00000000#8]) = some (.idle, []) ∧ decoded (decode .s [0b00000001#8]) = some (.init, []) ∧
    decoded (decode .s [0b00000010#8]) = some (.pad, []) ∧ decoded (decode .s [0b00000011#8]) = some (.wload, []) ∧
    decoded (decode .s [0b00000100#8]) = some (.wexp, []) ∧ decoded (decode .s [0b00000101#8]) = some (.cload, []) ∧
    decoded (decode .s [0b00000110#8]) = some (.round, []) ∧ decoded (decode .s [0b00000111#8]) = some (.feed, []) ∧
    decoded (decode .s [0b00001000#8]) = some (.done, []) := by decide

theorem test_decode_host_words :
    decoded (decode .ha [0b00000100#8, 0x01#8, 0x00#8, 0x00#8, 0x80#8]) = some (.start 0x80000001#32, []) ∧
    decoded (decode .ha [0b00000001#8]) = some (.rdstatus, []) ∧
    decoded (decode .ha [0b00000110#8, 0x18#8, 0#8, 0#8, 0#8, 0#8, 0#8, 0#8, 0x80#8, 0xAA#8]) =
      some (.wrlen 0x8000000000000018#64, [0xAA#8]) ∧
    decoded (decode .ha [0b00000010#8]) = some (.rdlen, []) ∧
    decoded (decode .ha [0b00000011#8]) = some (.rddigest, []) := by decide

/-- R104, R105, R63: what is no row is refused by name. -/
theorem test_decode_rejects_by_name :
    decodeFault (decode .s [0b00001001#8]) = some .reservedPhase ∧
    decodeFault (decode .s [0b00001111#8]) = some .reservedPhase ∧
    decodeFault (decode .ha [0b00000000#8]) = some .ctrlRead ∧
    decodeFault (decode .ha [0b00000101#8]) = some .statusWrite ∧
    decodeFault (decode .ha [0b00000111#8]) = some .digestWrite ∧
    decodeFault (decode .ha [0b00000100#8, 0xFE#8, 0xFF#8, 0xFF#8, 0xFF#8]) = some .ctrlWriteWithoutStart ∧
    decodeFault (decode .ha [0b00000100#8, 0x01#8]) = some .truncated ∧ decodeFault (decode .s []) = some .truncated ∧
    decodeFault (decodeAccess true 4 1#256) = some .absentRegister := by decide

/-- The table's words: 4 bits (or the byte they fill) a format S row, 3 bits or selector and data a format HA row. -/
theorem test_table_words :
    decodeTableWord 4 0x6 = some .round ∧ decodeTableWord 8 0x8 = some .done ∧ decodeTableWord 8 0x9 = none ∧
    decodeTableWord 3 0x1 = some .rdstatus ∧ decodeTableWord 3 0x3 = some .rddigest ∧
    decodeTableWord 40 0x0104 = some (.start 1#32) ∧ decodeTableWord 72 0x1806 = some (.wrlen 24#64) := by decide

/-- Right after reset the host's words run as the first step, whatever the free reset values are. -/
theorem test_words_run_after_reset :
    (∀ w : Fin 9, (after (step (State.reset.withFetchWord 8 w.val)) fun _ => ()).isSome = true) ∧
    (∀ w : Fin 8, (after (step (State.reset.withFetchWord 3 w.val)) fun _ => ()).isSome = true) := by decide

/-! ## The message space -/

theorem test_write_keeps_the_canonical_form :
    ((⟨[(1, 0x61#8), (5, 0x62#8)]⟩ : Memory).write 3 0x63#8).cells = [(1, 0x61#8), (3, 0x63#8), (5, 0x62#8)] ∧
    ((⟨[(1, 0x61#8), (5, 0x62#8)]⟩ : Memory).write 5 0x00#8).cells = [(1, 0x61#8)] ∧
    (⟨[(5, 0x61#8), (1, 0x62#8)]⟩ : Memory).wf = false ∧ (⟨[(1, 0x00#8)]⟩ : Memory).wf = false ∧
    (⟨[(2 ^ 61, 0x61#8)]⟩ : Memory).wf = false := by decide

/-- V3: MSG = 01100001 01100010 01100011. -/
theorem test_text_bits_of_abc : abc.memRead 0 24 =
    [false, true, true, false, false, false, false, true, false, true, true, false, false, false, true, false,
     false, true, true, false, false, false, true, true] := by decide

/-- R216: a character above 127 is one 0x3F; 127 itself is kept. -/
theorem test_text_substitution : (textMessage [0x7F, 0x80, 0xE9]).cells = [(0, 0x7F#8), (1, 0x3F#8), (2, 0x3F#8)] := by
  decide

/-! ## Primitives and constants (B1, B2) -/

theorem test_add32 : add32 0xffffffff#32 1#32 = 0#32 ∧ add32 0x6a09e667#32 0x79a6dddb#32 = 0xe3b0c442#32 := by decide

theorem test_shifts : rotr 0x12345678#32 7 = 0xf02468ac#32 ∧ rotr 1#32 31 = 2#32 ∧ shr 0x80000000#32 3 = 0x10000000#32 :=
  by decide

theorem test_sigmas : smallSigma0 0x12345678#32 = 0xe7fce6ee#32 ∧ smallSigma1 0x80000001#32 = 0x0020f000#32 ∧
    bigSigma0 0x6a09e667#32 = 0xce20b47e#32 ∧ bigSigma1 0x510e527f#32 = 0x3587272b#32 := by decide

theorem test_ch_maj : ch 0x6a09e667#32 0xbb67ae85#32 0x3c6ef372#32 = 0x3e67b715#32 ∧
    maj 0x510e527f#32 0x9b05688c#32 0x1f83d9ab#32 = 0x1b0758af#32 := by decide

/-- R120, R121, R122, R123: the literal tables are what the root formulas give. -/
theorem test_tables_are_the_formulas : primes.map kFormula = kTable ∧
    (primes.take 8).map h0Formula = [h0.a, h0.b, h0.c, h0.d, h0.e, h0.f, h0.g, h0.h] := by decide

/-! ## SEQ's operations -/

theorem test_idle_waits : after (step (inPhase 0#4)) (fun u => u) = some (inPhase 0#4) := by decide

theorem test_init : after (exec .init { inPhase 1#4 with hs := ⟨1, 2, 3, 4, 5, 6, 7, 8⟩, pos := 9#64 })
    (fun u => (u.hs, u.pos, u.phase)) = some (h0, 0#64, 2#4) := by decide

/-- R131's example: "abc". -/
theorem test_pad_abc : after (exec .pad (abcIn 2#4)) (fun u => (u.blk.toList, u.pos, u.phase)) =
    some ([0x61626380#32] ++ List.replicate 14 0#32 ++ [0x18#32], 24#64, 3#4) := by decide

/-- R136's example: 448 one bits, no marker. -/
theorem test_pad_448_ones : after (exec .pad { inPhase 2#4 with
    msg := placeOctets ⟨[]⟩ 0 (List.replicate 56 0xFF#8), msgLen := 448#64 }) (fun u => (u.blk.toList, u.pos)) =
    some (List.replicate 14 0xFFFFFFFF#32 ++ [0#32, 0x1c0#32], 448#64) := by decide

/-- R158: W[0..15] from BLK, W[16] kept. -/
theorem test_wload : after (exec .wload { inPhase 3#4 with
    blk := Vector.ofFn fun i => BitVec.ofNat 32 (i.val + 1), w := Vector.replicate 64 7#32 })
    (fun u => (storeRead u.w 0, storeRead u.w 15, storeRead u.w 16, u.t, u.phase)) =
    some (1#32, 16#32, 7#32, 16#7, 4#4) := by decide

/-- R159's example: W[17] of "abc". -/
theorem test_wexp : after (exec .wexp { inPhase 4#4 with
    w := storeWrite (Vector.replicate 64 0#32) 15 0x18#32, t := 17#7 })
    (fun u => (storeRead u.w 17, u.t, u.phase)) = some (0x000f0000#32, 18#7, 4#4) := by decide

/-- R159's corner case: words ffffffff wrap to 203ffffc; here at T = 63, the last WEXP. -/
theorem test_wexp_last : after (exec .wexp { inPhase 4#4 with w := Vector.replicate 64 0xffffffff#32, t := 63#7 })
    (fun u => (storeRead u.w 63, u.t, u.phase)) = some (0x203ffffc#32, 64#7, 5#4) := by decide

theorem test_cload : after (exec .cload { inPhase 5#4 with wv := ⟨1, 2, 3, 4, 5, 6, 7, 8⟩, t := 64#7 })
    (fun u => (u.wv, u.t, u.phase)) = some (h0, 0#7, 6#4) := by decide

/-- R178's example: round 0 of "abc". -/
theorem test_round_0_of_abc : after (exec .round { inPhase 6#4 with w := Vector.replicate 64 0x61626380#32 })
    (fun u => (u.wv, u.t, u.phase)) =
    some (⟨0x5d6aebcd, 0x6a09e667, 0xbb67ae85, 0x3c6ef372, 0xfa2a4622, 0x510e527f, 0x9b05688c, 0x1f83d9ab⟩, 1#7, 6#4) :=
  by decide

/-- B5: round 63 of "abc", from the row of round 62, with K[63] and W[63]. -/
theorem test_round_63_of_abc : after (exec .round { inPhase 6#4 with
    wv := ⟨0xd39a2165, 0x04d24d6c, 0xb85e2ce9, 0xb6ae8fff, 0xfb121210, 0x948d25b6, 0x961f4894, 0xb21bad3d⟩,
    w := storeWrite (Vector.replicate 64 0#32) 63 0x12b1edeb#32, t := 63#7 }) (fun u => (u.wv, u.t, u.phase)) =
    some (⟨0x506e3058, 0xd39a2165, 0x04d24d6c, 0xb85e2ce9, 0x5ef50f24, 0xfb121210, 0x948d25b6, 0x961f4894⟩,
      64#7, 7#4) := by decide

/-- R179's example: the FEED of "abc". -/
theorem test_feed_of_abc : after (exec .feed { abcIn 7#4 with
    wv := ⟨0x506e3058, 0xd39a2165, 0x04d24d6c, 0xb85e2ce9, 0x5ef50f24, 0xfb121210, 0x948d25b6, 0x961f4894⟩,
    pos := 24#64 }) (fun u => (u.hs, u.phase)) =
    some (⟨0xba7816bf, 0x8f01cfea, 0x414140de, 0x5dae2223, 0xb00361a3, 0x96177a9c, 0xb410ff61, 0xf20015ad⟩, 8#4) := by
  decide

/-- R180: with message bits left another block follows. -/
theorem test_feed_goes_on : after (exec .feed { inPhase 7#4 with msgLen := 449#64, pos := 448#64 }) (fun u => u.phase) =
    some 2#4 := by decide

theorem test_done_waits : after (step (inPhase 8#4)) (fun u => u) = some (inPhase 8#4) := by decide

/-! ## The host's accesses (B8) -/

theorem test_start : after (exec (.start 1#32) (inPhase 8#4)) (fun u => (u.phase, u.status)) = some (1#4, 1#32) ∧
    after (exec (.start 1#32) (inPhase 6#4)) (fun u => u.phase) = some 6#4 := by decide

theorem test_wrlen : after (exec (.wrlen 0x18#64) (inPhase 0#4)) (fun u => u.msgLen) = some 24#64 ∧
    after (exec (.wrlen 0x18#64) (inPhase 2#4)) (fun u => u.msgLen) = some 0#64 := by decide

theorem test_rdstatus : after (exec .rdstatus (inPhase 0#4)) (fun u => u.reply) = some (.word 0#32) ∧
    after (exec .rdstatus (inPhase 7#4)) (fun u => u.reply) = some (.word 1#32) ∧
    after (exec .rdstatus (inPhase 8#4)) (fun u => u.reply) = some (.word 2#32) := by decide

theorem test_rdlen : after (exec .rdlen (abcIn 4#4)) (fun u => u.reply) = some (.length 24#64) := by decide

theorem test_rddigest : after (exec .rddigest (inPhase 8#4)) (fun u => u.reply) =
    some (.digest 0x6a09e667bb67ae853c6ef372a54ff53a510e527f9b05688c1f83d9ab5be0cd19#256) := by decide

/-- RDDIGEST outside DONE draws a free value and counts the draw. -/
theorem test_rddigest_early : after (exec .rddigest (inPhase 0#4)) (fun u => (u.draws, u.phase)) = some (1, 0#4) := by
  decide

/-- A reserved access is one step that takes its turn and drops it, outside BUSY too (R105); a register above 3 reads 0. -/
theorem test_reserved_access_step :
    after (step { inPhase 0#4 with agenda := [.host ⟨true, 1, 1#256⟩] }) (fun u => u) = some (inPhase 0#4) ∧
    after (step { inPhase 8#4 with agenda := [.host ⟨false, 4, 1#256⟩] }) (fun u => (u.phase, u.reply)) =
      some (8#4, .word 0#32) := by decide

/-- R66, R182: the digest text of "abc". -/
theorem test_digest_text : String.ofList (hexText (digestOf
      ⟨0xba7816bf, 0x8f01cfea, 0x414140de, 0x5dae2223, 0xb00361a3, 0x96177a9c, 0xb410ff61, 0xf20015ad⟩)) =
    "ba7816bf8f01cfea414140de5dae2223b00361a396177a9cb410ff61f20015ad" := by decide

/-! ## Witnesses: concrete states that meet the hypotheses of the statements -/

theorem witness_decode : (Instr.start 3#32).wellFormed = true ∧
    decode .ha [0xFE#8, 0x18#8, 0#8, 0#8, 0#8, 0#8, 0#8, 0#8, 0#8, 0x55#8] = .ok (.wrlen 24#64, [0x55#8]) ∧
    decodeTableWord 8 0x4 = some .wexp ∧ decodeTableWord 3 0x2 = some .rdlen := ⟨by decide, rfl, by decide, by decide⟩

/-- SeqStepRunsTheOperationOfPhase, HostStepRunsTheDecodedAccess: both forms of the agenda. -/
theorem witness_step : decodeS (inPhase 2#4).phase = .ok .pad ∧ (inPhase 2#4).agenda = [] ∧
    ({ inPhase 2#4 with agenda := [.seq, .reset] } : State).agenda = .seq :: [.reset] ∧
    ({ base with agenda := [.host ⟨true, 2, 24#256⟩] } : State).agenda = .host ⟨true, 2, 24#256⟩ :: [] ∧
    decodeAccess true 2 24#256 = .ok (.wrlen 24#64) := ⟨rfl, rfl, rfl, rfl, rfl⟩

/-- ReservedAccessesHaveNoEffect, HostAccessWhileBusyKeepsTheRun, PresentedOctetReadsBack. -/
theorem witness_host_clauses : (2#256).getLsbD 0 = false ∧ (3#256).getLsbD 0 = (1#256).getLsbD 0 ∧ 3 < 4 ∧
    (inPhase 1#4).busy = true ∧ (inPhase 7#4).busy = true ∧ (inPhase 0#4).busy = false ∧ (inPhase 8#4).busy = false ∧
    base.msg.wf = true := by decide

/-- ReservedPhaseIsStuck at both ends of the reserved codes, SEQ having the turn either way. -/
theorem witness_reserved : 9 ≤ (inPhase 9#4).phase.toNat ∧ 9 ≤ (inPhase 15#4).phase.toNat ∧
    (takeTurn (inPhase 9#4)).1 = .seq ∧ (takeTurn { inPhase 15#4 with agenda := [.seq] }).1 = .seq ∧
    after (step (inPhase 15#4)) (fun u => (u.phase, u.status)) = some (15#4, 0#32) ∧
    after (step { inPhase 15#4 with agenda := [.reset] }) (fun u => u.phase) = some 0#4 := by decide

/-- PadFormsTheBlock and PadFollowsTheClosedForm: POS at L, POS below L, and block 1 of a message of 449 bits. -/
theorem witness_pad : ({ base with pos := 24#64, msgLen := 24#64 } : State).pos.toNat ≤ 24 ∧
    (abcIn 2#4).pos.toNat ≤ (abcIn 2#4).msgLen.toNat ∧ 1 < numBlocks 449#64 ∧ (448#64).toNat = 448 * 1 ∧
    0 < numBlocks 0#64 := by decide

/-- WexpComputesOneScheduleWord and RoundUpdatesTheWorkingVariables at the ends of T; OperandsOutOfRangeAreFree past them, at
each boundary: T 15, 64 and 127, POS just above MSG_LEN. -/
theorem witness_t : 16 ≤ (16#7).toNat ∧ (16#7).toNat ≤ 63 ∧ 16 ≤ (63#7).toNat ∧ (63#7).toNat ≤ 63 ∧ (0#7).toNat ≤ 63 ∧
    after (exec .wexp { base with t := 15#7 }) (fun u => (u.t, u.phase, u.draws, storeRead u.w 14)) =
      some (16#7, 4#4, 1, 0#32) ∧
    after (exec .wexp { base with t := 64#7 }) (fun u => (u.t, u.phase, u.draws, u.w)) =
      some (65#7, 4#4, 0, base.w) ∧
    after (exec .round { base with t := 127#7 }) (fun u => (u.t, u.phase, u.draws, u.wv.b)) =
      some (0#7, 6#4, 2, h0.a) ∧
    after (exec .pad { base with pos := 1#64 }) (fun u => (u.phase, u.draws)) = some (3#4, 1) := by decide

/-- IdleWaitsForStart and DoneHoldsTheDigest: SEQ's step, a START, and a reset. -/
theorem witness_idle_done : (takeTurn (inPhase 0#4)).1 = .seq ∧
    after (step { inPhase 0#4 with agenda := [.host ⟨true, 0, 1#256⟩] }) (fun u => u.phase) = some 1#4 ∧
    after (step { inPhase 8#4 with agenda := [.host ⟨true, 0, 3#256⟩] }) (fun u => (u.phase, u.hs)) = some (1#4, h0) ∧
    after (step { inPhase 8#4 with agenda := [.reset] }) (fun u => (u.phase, u.status)) = some (0#4, 0#32) := by decide

/-- StartBeginsARunOrIsDropped, WrlenStoresOrIsDropped, RddigestReturnsTheHashState, EarlyDigestReadShowsNothing. -/
theorem witness_phases : (1#32).getLsbD 0 = true ∧ (inPhase 0#4).phase = 0#4 ∧ (inPhase 8#4).phase = 8#4 ∧
    (inPhase 1#4).phase ≠ 0#4 ∧ (inPhase 9#4).phase ≠ 8#4 ∧ (inPhase 7#4).draws = (inPhase 0#4).draws := by decide

/-- RotateAndShiftBits, SigmaBits, ExpandFollowsTheRecurrence and StatusIsAFunctionOfPhase at the ends of their ranges. -/
theorem witness_bits : 15 < 16 ∧ 16 ≤ 16 ∧ 63 < 64 ∧ (inPhase 0#4).phase.toNat ≤ 8 ∧ (inPhase 8#4).phase.toNat ≤ 8 ∧
    0 < 1 ∧ 1 < 32 ∧ 0 < 31 ∧ 31 < 32 ∧ (rotr 1#32 1).getLsbD 31 = true ∧
    (shr 0x80000000#32 31).getLsbD 0 = true := by decide

/-- PresentedOctetReadsBack and its refusal; ResetForgetsTheCore. -/
theorem witness_message_turn :
    after (step { base with agenda := [.message 5#61 0x61#8] }) (fun u => u.msg.cells) = some [(5, 0x61#8)] ∧
    refusalOf (step { inPhase 1#4 with agenda := [.message 5#61 0x61#8] }) = some .messageChangedWhileBusy ∧
    after (step { inPhase 6#4 with agenda := [.reset] }) (fun u => (u.phase, u.draws)) = some (0#4, 1) := by decide

/-- StepKeepsControlInv, NothingStopsButAChangeOfMsg: ROUND 63, and the step it takes. -/
theorem witness_controlInv : ControlInv { inPhase 6#4 with t := 63#7 } ∧
    step { inPhase 6#4 with t := 63#7 } = .next (roundNext { inPhase 6#4 with t := 63#7 }) := by
  refine ⟨⟨by decide, ?_, fun _ _ => ⟨by decide, .inr rfl⟩, ?_, ?_, fun _ => by decide, ?_⟩, rfl⟩ <;> decide

/-- StepKeepsRunInv: the first PAD of a run on "abc". -/
theorem witness_runInv : RunInv (abcIn 2#4) ∧ step (abcIn 2#4) = .next (padNext (abcIn 2#4)) := by
  refine ⟨⟨⟨by decide, fun _ => ⟨⟨0, rfl⟩, by decide, .inl rfl⟩, ?_, ?_, ?_, ?_, ?_⟩,
    fun _ => ⟨0, by decide, rfl, rfl⟩, ?_, ?_, ?_, ?_, ?_⟩, rfl⟩
  · intro h
    exact absurd h (by decide)
  all_goals
    intro h
    exact absurd h (by decide)

/-- The state of a run on "abc" before its FEED. -/
def abcFeed : State :=
  { abcIn 7#4 with
    pos := 24#64
    t   := 64#7
    blk := padBlock abc 24#64 0
    w   := expand (padBlock abc 24#64 0)
    wv  := roundsFrom h0 (expand (padBlock abc 24#64 0)) 64 }

/-- LastFeedLeavesTheCoreDigest: a state that meets all four hypotheses. -/
theorem witness_last_feed : RunInv abcFeed ∧ abcFeed.phase = 7#4 ∧ SeqMoves abcFeed ∧
    abcFeed.msgLen.toNat ≤ abcFeed.pos.toNat := by
  have hne : ∀ p : BitVec 4, p ≠ 7#4 → abcFeed.phase ≠ p := fun p hp h => hp h.symm
  have hb : InBlock abcFeed 0 := ⟨by decide, rfl, rfl, rfl⟩
  refine ⟨⟨⟨by decide, fun h => absurd h (hne _ (by decide)), fun _ _ => ⟨by decide, .inr rfl⟩,
    fun h => absurd h (hne _ (by decide)), fun h => absurd h (hne _ (by decide)),
    fun h => absurd h (hne _ (by decide)), fun _ => by decide⟩,
    fun h => absurd h (hne _ (by decide)), fun h => absurd h (hne _ (by decide)),
    fun h => absurd h (hne _ (by decide)), fun h => absurd h (hne _ (by decide)),
    fun h => absurd h (hne _ (by decide)), fun _ => ⟨0, hb, rfl, rfl⟩⟩, rfl, rfl, by decide⟩

/-- RegistersHaveTheirWriters and PhaseChangesOnlyByTheTable: a step of each kind of turn. -/
theorem witness_turns : (takeTurn (inPhase 1#4)).1 ≠ .reset ∧
    after (step (inPhase 1#4)) (fun u => u.phase) = some 2#4 ∧
    after (step { base with agenda := [.host ⟨true, 2, 24#256⟩] }) (fun u => u.msgLen) = some 24#64 ∧
    after (step { base with agenda := [.message 0#61 0x61#8] }) (fun u => u.phase) = some 0#4 := by decide

/-- WloadAndWexpComputeExpand, CompressionIsProcessBlock, RunComputesTheCoreDigest, RunFollowsTheFixedSequence. -/
theorem witness_runs : (inPhase 3#4).agenda = [] ∧ (inPhase 3#4).phase = 3#4 ∧ (inPhase 5#4).agenda = [] ∧
    (inPhase 5#4).phase = 5#4 ∧ (abcIn 1#4).agenda = [] ∧ (abcIn 1#4).phase = 1#4 ∧ 0 < numBlocks (abcIn 1#4).msgLen ∧
    0 < 116 ∧ 115 < 116 := by decide

/-- InterleavingDoesNotMatter: a status poll, a dropped START, a SEQ step and an early RDDIGEST during a run. -/
theorem witness_interleaving :
    (∀ turn ∈ [Turn.host ⟨false, 1, 0#256⟩, .host ⟨true, 0, 1#256⟩, .seq, .host ⟨false, 3, 0#256⟩],
      turn = .seq ∨ ∃ a, turn = .host a) ∧
    [Turn.host ⟨false, 1, 0#256⟩, .host ⟨true, 0, 1#256⟩, .seq, .host ⟨false, 3, 0#256⟩].count .seq = 1 ∧
    1 < 1 + 116 * numBlocks 24#64 := by
  refine ⟨fun turn h => ?_, by decide, by decide⟩
  simp only [List.mem_cons, List.not_mem_nil, or_false] at h
  rcases h with rfl | rfl | rfl | rfl
  · exact .inr ⟨_, rfl⟩
  · exact .inr ⟨_, rfl⟩
  · exact .inl rfl
  · exact .inr ⟨_, rfl⟩

/-- TextFrontEndMakesTheMessage: "abc", and the placeholder at code point 128. -/
theorem witness_text : 8 * [0x61, 0x62, 0x63].length < 2 ^ 64 ∧ (abcIn 0#4).msg = textMessage [0x61, 0x62, 0x63] ∧
    (abcIn 0#4).msgLen = textLength [0x61, 0x62, 0x63] ∧ charOctet 127 = 0x7F#8 ∧ charOctet 128 = 0x3F#8 := by decide

/-- 93 U6: a text of 2^61 characters has no digest. -/
theorem test_text_too_long (text : List Nat) (h : text.length = 2 ^ 61) : sha256Text text = none :=
  if_neg (by omega)

end Sys2Proof.Tests
end

/-! # The state: what a turn can do, the invariants of R40, the writers of R20 and the STATUS view

`Move` lists what one turn can do, row by row of the transition table; `step_move` ties it to `step`. The statements about
every step are case analyses of a `Move`. -/

namespace Sys2Proof.Proofs

open Sys2Proof Sys2Proof.Machine Sys2Proof.Safety

/-! ## What a turn can do -/

/-- What the turn can make of `s`: the rows of R201 for SEQ, the accesses of R203 and R206 to R210 for the host, an octet of
MSG put in place outside BUSY (R264), the reset event (R260). -/
inductive Move (s : State) : Turn → State → Prop
  | waits (hp : s.phase = Phase.idle ∨ s.phase = Phase.done ∨ 9 ≤ s.phase.toNat) : Move s .seq s
  | init (hp : s.phase = Phase.init) : Move s .seq { s with hs := h0, pos := 0#64, phase := Phase.pad }
  | pad (hp : s.phase = Phase.pad) : Move s .seq (padNext s)
  | wload (hp : s.phase = Phase.wload) :
      Move s .seq { s with w := loadBlock s.blk s.w, t := 16#7, phase := Phase.wexp }
  | wexp (hp : s.phase = Phase.wexp) : Move s .seq (wexpNext s)
  | cload (hp : s.phase = Phase.cload) : Move s .seq { s with wv := s.hs, t := 0#7, phase := Phase.round }
  | round (hp : s.phase = Phase.round) : Move s .seq (roundNext s)
  | feed (hp : s.phase = Phase.feed) : Move s .seq (feedNext s)
  | hostNothing (a : HostAccess) : Move s (.host a) s
  | hostStart (a : HostAccess) (ha : s.accepts = true) (hw : a.write = true) (hr : a.reg = 0)
      (hb : a.data.getLsbD 0 = true) : Move s (.host a) { s with phase := Phase.init }
  | hostLength (a : HostAccess) (ha : s.accepts = true) (hw : a.write = true) (hr : a.reg = 2) :
      Move s (.host a) { s with msgLen := a.data.setWidth 64 }
  | hostRead (a : HostAccess) (hw : a.write = false) (r : Reply) (d : Nat) :
      Move s (.host a) { s with reply := r, draws := d }
  | message (octet : BitVec 61) (value : Byte) (hb : s.busy = false) :
      Move s (.message octet value) { s with msg := s.msg.write octet.toNat value }
  | reset : Move s .reset (applyReset s)

theorem seqTurn_move {s u : State} (h : seqTurn s = .next u) : Move s .seq u := by
  obtain ⟨v, hv, hcases⟩ := seqTurn_next s
  obtain rfl : v = u := by simpa [hv] using h
  rcases hcases with ⟨hp, rfl⟩ | ⟨hp, rfl⟩ | ⟨hp, rfl⟩ | ⟨hp, rfl⟩ | ⟨hp, rfl⟩ | ⟨hp, rfl⟩ | ⟨hp, rfl⟩ | ⟨hp, rfl⟩ |
    ⟨hp, rfl⟩ | ⟨hp, rfl⟩
  · exact .waits (.inl hp)
  · exact .waits (.inr (.inl hp))
  · exact .waits (.inr (.inr hp))
  · exact .init hp
  · exact .pad hp
  · exact .wload hp
  · exact .wexp hp
  · exact .cload hp
  · exact .round hp
  · exact .feed hp

theorem hostTurn_move {a : HostAccess} {s u : State} (h : hostTurn a s = .next u) : Move s (.host a) u := by
  obtain ⟨v, hv, hcases⟩ := hostTurn_next a s
  obtain rfl : v = u := by simpa [hv] using h
  rcases hcases with rfl | ⟨ha, hw, hr, hb, rfl⟩ | ⟨ha, hw, hr, rfl⟩ | ⟨hw, r, d, rfl⟩
  · exact .hostNothing a
  · exact .hostStart a ha hw hr hb
  · exact .hostLength a ha hw hr
  · exact .hostRead a hw r d

theorem runTurn_move {turn : Turn} {s u : State} (h : runTurn turn s = .next u) : Move s turn u := by
  cases turn with
  | seq => exact seqTurn_move h
  | host a => exact hostTurn_move h
  | message octet value =>
    obtain ⟨hb, rfl⟩ := messageTurn_next h
    exact .message octet value hb
  | reset =>
    cases h
    exact .reset

/-- A step is a move of the turn that comes first, from the state with that turn taken. -/
theorem step_move {s u : State} (h : step s = .next u) : Move (takeTurn s).2 (takeTurn s).1 u := runTurn_move h

/-! The phase a loop or FEED goes on to (R201). -/

theorem wexpNext_phase (s : State) :
    (wexpNext s).phase = if s.t.toNat = 63 then Phase.cload else Phase.wexp := rfl

theorem roundNext_phase (s : State) :
    (roundNext s).phase = if s.t.toNat = 63 then Phase.feed else Phase.round := rfl

theorem feedNext_phase (s : State) :
    (feedNext s).phase = if s.pos.toNat < s.msgLen.toNat then Phase.pad else Phase.done := rfl

/-! ## The status bits (R31) -/

theorem busy_iff (s : State) : s.busy = true ↔ 1 ≤ s.phase.toNat ∧ s.phase.toNat ≤ 7 := by
  simp [State.busy, busyOf]

theorem isDone_iff (s : State) : s.isDone = true ↔ s.phase.toNat = 8 := by
  simp [State.isDone, doneOf, ← BitVec.toNat_inj]

theorem accepts_iff (s : State) : s.accepts = true ↔ s.phase = Phase.idle ∨ s.phase = Phase.done := by
  simp [State.accepts]

/-- A START or WRLEN is accepted only outside BUSY (R203, R206). -/
theorem busy_eq_false_of_accepts {s : State} (h : s.accepts = true) : s.busy = false := by
  rcases (accepts_iff s).mp h with hp | hp <;> simp [State.busy, busyOf, hp]

/-- BUSY and DONE are never both 1 (R31). -/
theorem not_busy_and_isDone (s : State) : ¬ (s.busy = true ∧ s.isDone = true) := by
  rw [busy_iff, isDone_iff]
  omega

theorem status_getLsbD_zero (s : State) : s.status.getLsbD 0 = s.busy := by
  unfold State.status
  cases s.busy <;> cases s.isDone <;> rfl

theorem status_getLsbD_one (s : State) : s.status.getLsbD 1 = s.isDone := by
  unfold State.status
  cases s.busy <;> cases s.isDone <;> rfl

/-- Bits 31:2 of STATUS are zero: the value is at most 3. -/
theorem status_getLsbD_reserved (s : State) {n : Nat} (hn : 2 ≤ n) : s.status.getLsbD n = false := by
  have hlt : s.status.toNat < 2 ^ 2 := by
    unfold State.status
    cases s.busy <;> cases s.isDone <;> decide
  exact Nat.testBit_lt_two_pow (hlt.trans_le (Nat.pow_le_pow_right (by decide) hn))

theorem status_eq_zero_iff (s : State) : s.status = 0#32 ↔ s.busy = false ∧ s.isDone = false := by
  unfold State.status
  cases s.busy <;> cases s.isDone <;> decide

/-- Selector 101 is no row of the table, so a write of STATUS is a reserved access (R105). -/
theorem hostTurn_writeStatus (data : BitVec 256) (s : State) : hostTurn ⟨true, 1, data⟩ s = .next s := rfl

/-- Settles O31: each status bit is a bound on PHASE. -/
theorem statusIsAFunctionOfPhase : Obligations.StatusIsAFunctionOfPhase := by
  refine ⟨rfl, fun s => ⟨fun data => hostTurn_writeStatus data s, ?_, ?_, fun n hn => status_getLsbD_reserved s hn,
    ?_, ?_, (status_getLsbD_one s).symm⟩⟩
  · rw [status_getLsbD_zero, busy_iff]
  · rw [status_getLsbD_one, isDone_iff]
  · rw [status_getLsbD_zero, status_getLsbD_one]
    exact not_busy_and_isDone s
  · intro hlegal
    rw [status_eq_zero_iff, Bool.eq_false_iff, Bool.eq_false_iff, ne_eq, ne_eq, busy_iff, isDone_iff]
    omega

/-! ## R40 outside the blocks of a run, and in a state that differs elsewhere -/

/-- The phases in which R40 asks nothing of POS, T or the data: no run, or a run that has not entered its first block. -/
def OutsideBlocks (s : State) : Prop := s.phase = Phase.idle ∨ s.phase = Phase.init ∨ s.phase = Phase.done

theorem controlInv_of_outsideBlocks {s : State} (h : OutsideBlocks s) : ControlInv s := by
  rcases h with hp | hp | hp <;> constructor <;> simp [hp]

theorem runInv_of_outsideBlocks {s : State} (h : OutsideBlocks s) : RunInv s := by
  refine ⟨controlInv_of_outsideBlocks h, ?_, ?_, ?_, ?_, ?_, ?_⟩ <;> rcases h with hp | hp | hp <;> simp [hp]

theorem outsideBlocks_of_accepts {s : State} (h : s.accepts = true) : OutsideBlocks s :=
  ((accepts_iff s).mp h).imp_right .inr

/-- A legal PHASE outside BUSY is IDLE or DONE. -/
theorem outsideBlocks_of_not_busy {s : State} (hlegal : s.phase.toNat ≤ 8) (hb : s.busy = false) :
    OutsideBlocks s := by
  have hnot : ¬ (1 ≤ s.phase.toNat ∧ s.phase.toNat ≤ 7) := by simp [← busy_iff, hb]
  have hcases : s.phase.toNat = 0 ∨ s.phase.toNat = 8 := by omega
  exact hcases.imp BitVec.eq_of_toNat_eq fun h => .inr (BitVec.eq_of_toNat_eq h)

/-- Right after reset PHASE is IDLE (R39). -/
theorem reset_outsideBlocks : OutsideBlocks State.reset := .inl rfl

/-- Settles O36: in IDLE the invariant asks nothing more. -/
theorem controlInvHoldsAtReset : Obligations.ControlInvHoldsAtReset := controlInv_of_outsideBlocks reset_outsideBlocks

/-- Settles O39: in IDLE the invariant asks nothing more. -/
theorem runInvHoldsAtReset : Obligations.RunInvHoldsAtReset := runInv_of_outsideBlocks reset_outsideBlocks

/-- Settles O35: with no turn planned SEQ moves, and its turn in IDLE answers the state unchanged. -/
theorem resetStateIsIdle : Obligations.ResetStateIsIdle := by
  have hseq : step State.reset = seqTurn State.reset := step_of_nil rfl
  exact ⟨rfl, rfl, rfl, reset_msg_wf, hseq⟩

/-- The control invariant speaks of PHASE, POS, MSG_LEN and T alone. -/
theorem controlInv_congr {s u : State} (h : ControlInv s) (hphase : u.phase = s.phase) (hpos : u.pos = s.pos)
    (hlen : u.msgLen = s.msgLen) (ht : u.t = s.t) : ControlInv u := by
  constructor <;> rw [hphase]
  · exact h.phaseLegal
  · rw [hpos, hlen]
    exact h.padPos
  · rw [hpos, hlen]
    exact h.blockPos
  · rw [ht]
    exact h.wexpT
  · rw [ht]
    exact h.cloadT
  · rw [ht]
    exact h.roundT
  · rw [ht]
    exact h.feedT

theorem takeTurn_controlInv {s : State} (h : ControlInv s) : ControlInv (takeTurn s).2 :=
  controlInv_congr h (takeTurn_phase s) (takeTurn_pos s) (takeTurn_msgLen s) (takeTurn_t s)

/-! ## The control invariant: R40 (a), (b), (d) -/

/-- PAD leaves POS at L or at the next multiple of 448 (R131). -/
theorem padNext_pos_boundary {s : State} (h : ControlInv s) (hp : s.phase = Phase.pad) :
    (padNext s).pos.toNat ≤ s.msgLen.toNat ∧ (448 ∣ (padNext s).pos.toNat ∨ (padNext s).pos = s.msgLen) := by
  obtain ⟨hdvd, hle, -⟩ := h.padPos hp
  rw [← BitVec.toNat_inj, padNext_pos hle]
  omega

theorem padNext_controlInv {s : State} (h : ControlInv s) (hp : s.phase = Phase.pad) : ControlInv (padNext s) where
  phaseLegal := by simp
  padPos := by simp
  blockPos := fun _ _ => padNext_pos_boundary h hp
  wexpT := by simp
  cloadT := by simp
  roundT := by simp
  feedT := by simp

theorem wload_controlInv {s : State} (h : ControlInv s) (hp : s.phase = Phase.wload) :
    ControlInv { s with w := loadBlock s.blk s.w, t := 16#7, phase := Phase.wexp } where
  phaseLegal := by simp
  padPos := by simp
  blockPos := fun _ _ => h.blockPos (by simp [hp]) (by simp [hp])
  wexpT := by simp
  cloadT := by simp
  roundT := by simp
  feedT := by simp

/-- WEXP counts T on to 64, where it enters CLOAD (R159). -/
theorem wexpNext_controlInv {s : State} (h : ControlInv s) (hp : s.phase = Phase.wexp) : ControlInv (wexpNext s) := by
  obtain ⟨h16, h63⟩ := h.wexpT hp
  have hpos := h.blockPos (by simp [hp]) (by simp [hp])
  by_cases hlast : s.t.toNat = 63
  · constructor <;> simp [wexpNext_phase, hlast, t_succ_toNat h63, hpos]
  · have hnext : 15 ≤ s.t.toNat ∧ s.t.toNat < 63 := by omega
    constructor <;> simp [wexpNext_phase, hlast, t_succ_toNat h63, hpos, hnext]

theorem cload_controlInv {s : State} (h : ControlInv s) (hp : s.phase = Phase.cload) :
    ControlInv { s with wv := s.hs, t := 0#7, phase := Phase.round } where
  phaseLegal := by simp
  padPos := by simp
  blockPos := fun _ _ => h.blockPos (by simp [hp]) (by simp [hp])
  wexpT := by simp
  cloadT := by simp
  roundT := by simp
  feedT := by simp

/-- ROUND counts T on to 64, where it enters FEED (R178). -/
theorem roundNext_controlInv {s : State} (h : ControlInv s) (hp : s.phase = Phase.round) :
    ControlInv (roundNext s) := by
  have h63 := h.roundT hp
  have hpos := h.blockPos (by simp [hp]) (by simp [hp])
  by_cases hlast : s.t.toNat = 63
  · constructor <;> simp [roundNext_phase, hlast, t_succ_toNat h63, hpos]
  · have hnext : s.t.toNat < 63 := by omega
    constructor <;> simp [roundNext_phase, hlast, t_succ_toNat h63, hpos, hnext]

/-- FEED goes on to PAD only below L, where POS is the multiple of 448 the block ended at (R180). -/
theorem feedNext_controlInv {s : State} (h : ControlInv s) (hp : s.phase = Phase.feed) : ControlInv (feedNext s) := by
  obtain ⟨hle, hbound⟩ := h.blockPos (by simp [hp]) (by simp [hp])
  by_cases hmore : s.pos.toNat < s.msgLen.toNat
  · have hdvd : 448 ∣ s.pos.toNat := hbound.resolve_right fun heq => by simp [heq] at hmore
    constructor <;> simp [feedNext_phase, hmore, hdvd, hle]
  · exact controlInv_of_outsideBlocks (.inr (.inr (if_neg hmore)))

theorem move_controlInv {s u : State} {turn : Turn} (hm : Move s turn u) (h : ControlInv s) : ControlInv u := by
  cases hm with
  | waits => exact h
  | init => constructor <;> simp
  | pad hp => exact padNext_controlInv h hp
  | wload hp => exact wload_controlInv h hp
  | wexp hp => exact wexpNext_controlInv h hp
  | cload hp => exact cload_controlInv h hp
  | round hp => exact roundNext_controlInv h hp
  | feed hp => exact feedNext_controlInv h hp
  | hostNothing => exact h
  | hostStart => exact controlInv_of_outsideBlocks (.inr (.inl rfl))
  | hostLength _ ha => exact controlInv_of_outsideBlocks (outsideBlocks_of_accepts (s := s) ha)
  | hostRead => exact controlInv_congr h rfl rfl rfl rfl
  | message => exact controlInv_congr h rfl rfl rfl rfl
  | reset => exact controlInv_of_outsideBlocks (.inl rfl)

/-- Only the host's octets reach MSG, and a write keeps the canonical form (log 5). -/
theorem move_msg_wf {s u : State} {turn : Turn} (hm : Move s turn u) (h : s.msg.wf = true) : u.msg.wf = true := by
  cases hm with
  | message octet value => exact Memory.wf_write h octet.isLt value
  | _ => exact h

/-- Settles O37, by cases on the move the step makes. -/
theorem stepKeepsControlInv : Obligations.StepKeepsControlInv := by
  intro s u hstep
  have hm := step_move hstep
  exact ⟨fun h => move_controlInv hm (takeTurn_controlInv h), fun h => move_msg_wf hm (by simpa using h)⟩

/-! ## The run invariant: R40 (c), (e), R181

One introduction per phase, then one lemma per operation for the data it writes. -/

section Intro

variable {s : State} (hc : ControlInv s)
include hc

theorem runInv_of_pad (hp : s.phase = Phase.pad)
    (h : ∃ j : Nat, j < numBlocks s.msgLen ∧ s.pos.toNat = 448 * j ∧ s.hs = chainState s.msg s.msgLen j) : RunInv s :=
  ⟨hc, fun _ => h, by simp [hp], by simp [hp], by simp [hp], by simp [hp], by simp [hp]⟩

theorem runInv_of_wload (hp : s.phase = Phase.wload) {j : Nat} (hj : InBlock s j) : RunInv s :=
  ⟨hc, by simp [hp], fun _ => ⟨j, hj⟩, by simp [hp], by simp [hp], by simp [hp], by simp [hp]⟩

theorem runInv_of_wexp (hp : s.phase = Phase.wexp) {j : Nat} (hj : InBlock s j)
    (hw : ∀ i : Nat, i < s.t.toNat → storeRead s.w i = storeRead (expand s.blk) i) : RunInv s :=
  ⟨hc, by simp [hp], by simp [hp], fun _ => ⟨j, hj, hw⟩, by simp [hp], by simp [hp], by simp [hp]⟩

theorem runInv_of_cload (hp : s.phase = Phase.cload) {j : Nat} (hj : InBlock s j) (hw : s.w = expand s.blk) :
    RunInv s :=
  ⟨hc, by simp [hp], by simp [hp], by simp [hp], fun _ => ⟨j, hj, hw⟩, by simp [hp], by simp [hp]⟩

theorem runInv_of_round (hp : s.phase = Phase.round) {j : Nat} (hj : InBlock s j) (hw : s.w = expand s.blk)
    (hwv : s.wv = roundsFrom s.hs s.w s.t.toNat) : RunInv s :=
  ⟨hc, by simp [hp], by simp [hp], by simp [hp], by simp [hp], fun _ => ⟨j, hj, hw, hwv⟩, by simp [hp]⟩

theorem runInv_of_feed (hp : s.phase = Phase.feed) {j : Nat} (hj : InBlock s j) (hw : s.w = expand s.blk)
    (hwv : s.wv = roundsFrom s.hs s.w 64) : RunInv s :=
  ⟨hc, by simp [hp], by simp [hp], by simp [hp], by simp [hp], by simp [hp], fun _ => ⟨j, hj, hw, hwv⟩⟩

end Intro

/-- `InBlock` speaks of HS, BLK, MSG_LEN, POS and MSG alone. -/
theorem inBlock_congr {s u : State} {j : Nat} (h : InBlock s j) (hhs : u.hs = s.hs) (hblk : u.blk = s.blk)
    (hlen : u.msgLen = s.msgLen) (hpos : u.pos = s.pos) (hmsg : u.msg = s.msg) : InBlock u j := by
  constructor
  · rw [hlen]
    exact h.index
  · rw [hpos, hlen]
    exact h.pos
  · rw [hblk, hmsg, hlen]
    exact h.blk
  · rw [hhs, hmsg, hlen]
    exact h.hs

/-- The run invariant does not speak of the turns to come, the last reply or the draws. -/
theorem runInv_frame {s : State} (h : RunInv s) (agenda : List Turn) (reply : Reply) (draws : Nat) :
    RunInv { s with agenda := agenda, reply := reply, draws := draws } := by
  have keep : ∀ {j : Nat}, InBlock s j → InBlock { s with agenda := agenda, reply := reply, draws := draws } j :=
    fun hj => inBlock_congr hj rfl rfl rfl rfl rfl
  exact ⟨controlInv_congr h.control rfl rfl rfl rfl, h.pad, fun hp => (h.wload hp).imp fun _ => keep,
    fun hp => (h.wexp hp).imp fun _ => .imp_left keep, fun hp => (h.cload hp).imp fun _ => .imp_left keep,
    fun hp => (h.round hp).imp fun _ => .imp_left keep, fun hp => (h.feed hp).imp fun _ => .imp_left keep⟩

theorem takeTurn_runInv {s : State} (h : RunInv s) : RunInv (takeTurn s).2 := by
  rw [takeTurn_state]
  exact runInv_frame h s.agenda.tail s.reply s.draws

/-- There is a block 0, also for the empty message (R137). -/
theorem numBlocks_pos (len : BitVec 64) : 0 < numBlocks len := by
  unfold numBlocks
  omega

/-- A block starts at 448 j as long as message bits are left there (R137, R143). -/
theorem lt_numBlocks_of_lt {len : BitVec 64} {j : Nat} (h : 448 * j < len.toNat) : j < numBlocks len := by
  unfold numBlocks
  omega

theorem init_runInv {s : State} (hc : ControlInv { s with hs := h0, pos := 0#64, phase := Phase.pad }) :
    RunInv { s with hs := h0, pos := 0#64, phase := Phase.pad } :=
  runInv_of_pad hc rfl ⟨0, numBlocks_pos s.msgLen, rfl, rfl⟩

/-- PAD forms block j where POS is 448 j (R143). -/
theorem padNext_inBlock {s : State} {j : Nat} (hle : s.pos.toNat ≤ s.msgLen.toNat) (hj : j < numBlocks s.msgLen)
    (hpos : s.pos.toNat = 448 * j) (hhs : s.hs = chainState s.msg s.msgLen j) : InBlock (padNext s) j where
  index := hj
  pos := by
    rw [padNext_pos hle, padNext_msgLen]
    omega
  blk := by
    rw [padNext_blk_of_le hle, hpos]
    rfl
  hs := hhs

theorem padNext_runInv {s : State} (h : RunInv s) (hp : s.phase = Phase.pad) : RunInv (padNext s) := by
  obtain ⟨j, hj, hpos, hhs⟩ := h.pad hp
  obtain ⟨-, hle, -⟩ := h.control.padPos hp
  exact runInv_of_wload (padNext_controlInv h.control hp) rfl (padNext_inBlock hle hj hpos hhs)

/-- The first sixteen schedule words are the block (R158, R160). -/
theorem storeRead_loadBlock_eq_expand (blk : Vector Word 16) (w : Vector Word 64) {i : Nat} (hi : i < 16) :
    storeRead (loadBlock blk w) i = storeRead (expand blk) i := by
  rw [storeRead_loadBlock blk w (by omega), if_pos hi, expand_low blk hi]

theorem wload_runInv {s : State} (h : RunInv s) (hp : s.phase = Phase.wload) :
    RunInv { s with w := loadBlock s.blk s.w, t := 16#7, phase := Phase.wexp } := by
  obtain ⟨j, hj⟩ := h.wload hp
  exact runInv_of_wexp (wload_controlInv h.control hp) rfl (inBlock_congr hj rfl rfl rfl rfl rfl)
    fun i hi => storeRead_loadBlock_eq_expand s.blk s.w hi

/-- Where W is the schedule below T, WEXP puts the schedule's word in W[T] (R159, R160). -/
theorem wexpNext_w_eq_expand {s : State} (h16 : 16 ≤ s.t.toNat) (h63 : s.t.toNat ≤ 63)
    (hw : ∀ i : Nat, i < s.t.toNat → storeRead s.w i = storeRead (expand s.blk) i) {i : Nat}
    (hi : i < s.t.toNat + 1) : storeRead (wexpNext s).w i = storeRead (expand s.blk) i := by
  by_cases hlast : i = s.t.toNat
  · rw [hlast, wexpNext_w_of_le h16, storeRead_storeWrite _ _ _ (by omega), if_pos rfl,
      expand_high s.blk h16 (by omega), scheduleWord_congr h16 hw]
  · rw [wexpNext_w_other s (by omega) hlast]
    exact hw i (by omega)

theorem wexpNext_runInv {s : State} (h : RunInv s) (hp : s.phase = Phase.wexp) : RunInv (wexpNext s) := by
  obtain ⟨j, hj, hw⟩ := h.wexp hp
  obtain ⟨h16, h63⟩ := h.control.wexpT hp
  have hc := wexpNext_controlInv h.control hp
  have hj' : InBlock (wexpNext s) j := inBlock_congr hj rfl rfl rfl rfl rfl
  by_cases hlast : s.t.toNat = 63
  · exact runInv_of_cload hc (if_pos hlast) hj'
      (store_ext fun i hi => wexpNext_w_eq_expand h16 h63 hw (by omega))
  · refine runInv_of_wexp hc (if_neg hlast) hj' fun i hi => wexpNext_w_eq_expand h16 h63 hw ?_
    rwa [wexpNext_t, t_succ_toNat h63] at hi

theorem cload_runInv {s : State} (h : RunInv s) (hp : s.phase = Phase.cload) :
    RunInv { s with wv := s.hs, t := 0#7, phase := Phase.round } := by
  obtain ⟨j, hj, hw⟩ := h.cload hp
  exact runInv_of_round (cload_controlInv h.control hp) rfl (inBlock_congr hj rfl rfl rfl rfl rfl) hw rfl

/-- ROUND takes v_T to v_(T+1) (R183). -/
theorem roundNext_wv_eq_roundsFrom {s : State} (h63 : s.t.toNat ≤ 63)
    (hwv : s.wv = roundsFrom s.hs s.w s.t.toNat) :
    (roundNext s).wv = roundsFrom s.hs s.w (s.t.toNat + 1) := by
  rw [roundNext_wv_of_le h63, hwv, roundsFrom]

theorem roundNext_runInv {s : State} (h : RunInv s) (hp : s.phase = Phase.round) : RunInv (roundNext s) := by
  obtain ⟨j, hj, hw, hwv⟩ := h.round hp
  have h63 := h.control.roundT hp
  have hc := roundNext_controlInv h.control hp
  have hj' : InBlock (roundNext s) j := inBlock_congr hj rfl rfl rfl rfl rfl
  have hwv' := roundNext_wv_eq_roundsFrom h63 hwv
  by_cases hlast : s.t.toNat = 63
  · rw [hlast] at hwv'
    exact runInv_of_feed hc (if_pos hlast) hj' hw hwv'
  · refine runInv_of_round hc (if_neg hlast) hj' hw ?_
    rw [roundNext_t, t_succ_toNat h63]
    exact hwv'

/-- FEED ends block j with the hash state after j + 1 blocks (R181, R185). -/
theorem feedNext_hs_eq_chainState {s : State} {j : Nat} (hj : InBlock s j) (hw : s.w = expand s.blk)
    (hwv : s.wv = roundsFrom s.hs s.w 64) : (feedNext s).hs = chainState s.msg s.msgLen (j + 1) := by
  rw [feedNext_hs, hwv, hw, hj.blk, hj.hs]
  rfl

theorem feedNext_runInv {s : State} (h : RunInv s) (hp : s.phase = Phase.feed) : RunInv (feedNext s) := by
  obtain ⟨j, hj, hw, hwv⟩ := h.feed hp
  by_cases hmore : s.pos.toNat < s.msgLen.toNat
  · have hnext : s.pos.toNat = 448 * (j + 1) := by
      have := hj.pos
      omega
    exact runInv_of_pad (feedNext_controlInv h.control hp) (if_pos hmore)
      ⟨j + 1, lt_numBlocks_of_lt (hnext ▸ hmore), hnext, feedNext_hs_eq_chainState hj hw hwv⟩
  · exact runInv_of_outsideBlocks (.inr (.inr (if_neg hmore)))

theorem move_runInv {s u : State} {turn : Turn} (hm : Move s turn u) (h : RunInv s) : RunInv u := by
  have hc := move_controlInv hm h.control
  cases hm with
  | waits => exact h
  | init => exact init_runInv hc
  | pad hp => exact padNext_runInv h hp
  | wload hp => exact wload_runInv h hp
  | wexp hp => exact wexpNext_runInv h hp
  | cload hp => exact cload_runInv h hp
  | round hp => exact roundNext_runInv h hp
  | feed hp => exact feedNext_runInv h hp
  | hostNothing => exact h
  | hostStart => exact runInv_of_outsideBlocks (.inr (.inl rfl))
  | hostLength _ ha => exact runInv_of_outsideBlocks (outsideBlocks_of_accepts (s := s) ha)
  | hostRead _ _ r d => exact runInv_frame h s.agenda r d
  | message _ _ hb => exact runInv_of_outsideBlocks (outsideBlocks_of_not_busy (s := s) h.control.phaseLegal hb)
  | reset => exact runInv_of_outsideBlocks (.inl rfl)

/-- Settles O40, by cases on the move the step makes. -/
theorem stepKeepsRunInv : Obligations.StepKeepsRunInv :=
  fun _ _ h hstep => move_runInv (step_move hstep) (takeTurn_runInv h)

/-! ## The writers of each register (R20) -/

section Writers

variable {s u : State} {turn : Turn} (hm : Move s turn u) (hr : turn ≠ .reset)
include hm hr

theorem hs_writer (h : u.hs ≠ s.hs) : turn = .seq ∧ (s.phase = Phase.init ∨ s.phase = Phase.feed) := by
  cases hm with
  | init hp => exact ⟨rfl, .inl hp⟩
  | feed hp => exact ⟨rfl, .inr hp⟩
  | reset => exact absurd rfl hr
  | _ => exact absurd rfl h

theorem wv_writer (h : u.wv ≠ s.wv) : turn = .seq ∧ (s.phase = Phase.cload ∨ s.phase = Phase.round) := by
  cases hm with
  | cload hp => exact ⟨rfl, .inl hp⟩
  | round hp => exact ⟨rfl, .inr hp⟩
  | reset => exact absurd rfl hr
  | _ => exact absurd rfl h

theorem blk_writer (h : u.blk ≠ s.blk) : turn = .seq ∧ s.phase = Phase.pad := by
  cases hm with
  | pad hp => exact ⟨rfl, hp⟩
  | reset => exact absurd rfl hr
  | _ => exact absurd rfl h

theorem w_writer (h : u.w ≠ s.w) : turn = .seq ∧ (s.phase = Phase.wload ∨ s.phase = Phase.wexp) := by
  cases hm with
  | wload hp => exact ⟨rfl, .inl hp⟩
  | wexp hp => exact ⟨rfl, .inr hp⟩
  | reset => exact absurd rfl hr
  | _ => exact absurd rfl h

theorem pos_writer (h : u.pos ≠ s.pos) : turn = .seq ∧ (s.phase = Phase.init ∨ s.phase = Phase.pad) := by
  cases hm with
  | init hp => exact ⟨rfl, .inl hp⟩
  | pad hp => exact ⟨rfl, .inr hp⟩
  | reset => exact absurd rfl hr
  | _ => exact absurd rfl h

theorem t_writer (h : u.t ≠ s.t) : turn = .seq ∧
    (s.phase = Phase.wload ∨ s.phase = Phase.wexp ∨ s.phase = Phase.cload ∨ s.phase = Phase.round) := by
  cases hm with
  | wload hp => exact ⟨rfl, .inl hp⟩
  | wexp hp => exact ⟨rfl, .inr (.inl hp)⟩
  | cload hp => exact ⟨rfl, .inr (.inr (.inl hp))⟩
  | round hp => exact ⟨rfl, .inr (.inr (.inr hp))⟩
  | reset => exact absurd rfl hr
  | _ => exact absurd rfl h

theorem msgLen_writer (h : u.msgLen ≠ s.msgLen) :
    s.busy = false ∧ ∃ data : BitVec 256, turn = .host ⟨true, 2, data⟩ := by
  cases hm with
  | hostLength a ha hw hreg =>
    obtain ⟨write, reg, data⟩ := a
    obtain rfl : write = true := hw
    obtain rfl : reg = 2 := hreg
    exact ⟨busy_eq_false_of_accepts ha, data, rfl⟩
  | reset => exact absurd rfl hr
  | _ => exact absurd rfl h

theorem msg_writer (h : u.msg ≠ s.msg) : s.busy = false ∧ ∃ a v, turn = .message a v := by
  cases hm with
  | message a v hb => exact ⟨hb, a, v, rfl⟩
  | reset => exact absurd rfl hr
  | _ => exact absurd rfl h

end Writers

/-- Taking a turn leaves PHASE, and so BUSY. -/
theorem takeTurn_busy (s : State) : (takeTurn s).2.busy = s.busy := by simp [State.busy]

/-- Settles O42: the move of the step names the only writers of each register. -/
theorem registersHaveTheirWriters : Obligations.RegistersHaveTheirWriters := by
  intro s u hstep hr
  have hm := step_move hstep
  refine ⟨fun h => ?_, fun h => ?_, fun h => ?_, fun h => ?_, fun h => ?_, fun h => ?_, fun h => ?_, fun h => ?_⟩
  · simpa [SeqMoves] using hs_writer hm hr (by simpa using h)
  · simpa [SeqMoves] using wv_writer hm hr (by simpa using h)
  · simpa [SeqMoves] using blk_writer hm hr (by simpa using h)
  · simpa [SeqMoves] using w_writer hm hr (by simpa using h)
  · simpa [SeqMoves] using pos_writer hm hr (by simpa using h)
  · simpa [SeqMoves] using t_writer hm hr (by simpa using h)
  · simpa [takeTurn_busy] using msgLen_writer hm hr (by simpa using h)
  · simpa [takeTurn_busy] using msg_writer hm hr (by simpa using h)

/-! ## Placing a table word (R34; logs 8, 9) -/

theorem decodeS_format {p : BitVec 4} {i : Instr} (h : decodeS p = .ok i) : i.format = .s := by
  rcases decodeS_cases p with ⟨-, hd⟩ | ⟨-, hd⟩ | ⟨-, hd⟩ | ⟨-, hd⟩ | ⟨-, hd⟩ | ⟨-, hd⟩ | ⟨-, hd⟩ | ⟨-, hd⟩ |
    ⟨-, hd⟩ | ⟨-, hd⟩ <;> rw [hd] at h <;> cases h <;> rfl

/-- A host access decodes through its selector dir‖reg (R99). -/
theorem decodeAccess_of_lt (write : Bool) {reg : Nat} (hreg : reg < 4) (data : BitVec 256) :
    decodeAccess write reg data = decodeHA (BitVec.ofNat 3 ((if write then 4 else 0) + reg)) data := if_pos hreg

theorem decodeAccess_format {write : Bool} {reg : Nat} {data : BitVec 256} {i : Instr}
    (h : decodeAccess write reg data = .ok i) : i.format = .ha := by
  rcases decodeAccess_ok h with ⟨-, -, -, rfl⟩ | ⟨-, -, rfl⟩ | ⟨-, -, rfl⟩ | ⟨-, -, rfl⟩ | ⟨-, -, rfl⟩ <;> rfl

/-- The low three bits of a table word are the selector of the access it stands for. -/
theorem selector_of_tableWord (w : Nat) :
    BitVec.ofNat 3 ((if w.testBit 2 then 4 else 0) + w % 4) = BitVec.ofNat 3 w := by
  apply BitVec.eq_of_toNat_eq
  have hbit : w.testBit 2 = decide (w / 4 % 2 = 1) := Nat.testBit_eq_decide_div_mod_eq
  simp only [hbit, BitVec.toNat_ofNat, decide_eq_true_eq]
  split <;> omega

theorem dataBytes_le (sel : BitVec 3) : dataBytes sel ≤ 32 := by
  rcases selector_cases sel with rfl | rfl | rfl | rfl | rfl | rfl | rfl | rfl <;> decide

theorem decodeHA_start (data : BitVec 256) :
    decodeHA 4#3 data = if data.getLsbD 0 then .ok (.start (data.setWidth 32)) else .error .ctrlWriteWithoutStart := rfl

theorem decodeHA_wrlen (data : BitVec 256) : decodeHA 6#3 data = .ok (.wrlen (data.setWidth 64)) := rfl

/-- The decoder looks at no more of the data than the bytes that follow its selector (R99; log 8). -/
theorem decodeHA_mod (sel : BitVec 3) (v : Nat) :
    decodeHA sel (BitVec.ofNat 256 (v % 256 ^ dataBytes sel)) = decodeHA sel (BitVec.ofNat 256 v) := by
  rcases selector_cases sel with rfl | rfl | rfl | rfl | rfl | rfl | rfl | rfl
  · rfl
  · rfl
  · rfl
  · rfl
  · have hwidth : (BitVec.ofNat 256 (v % 256 ^ 4)).setWidth 32 = (BitVec.ofNat 256 v).setWidth 32 :=
      BitVec.eq_of_toNat_eq (by simp)
    have hbit : (BitVec.ofNat 256 (v % 256 ^ 4)).getLsbD 0 = (BitVec.ofNat 256 v).getLsbD 0 := by
      have hlow := congrArg (·.getLsbD 0) hwidth
      simpa only [BitVec.getLsbD_setWidth, Nat.zero_lt_succ, decide_true, Bool.true_and] using hlow
    rw [decodeHA_start, decodeHA_start, show dataBytes 4#3 = 4 from rfl, hwidth, hbit]
  · rfl
  · have hwidth : (BitVec.ofNat 256 (v % 256 ^ 8)).setWidth 64 = (BitVec.ofNat 256 v).setWidth 64 :=
      BitVec.eq_of_toNat_eq (by simp)
    rw [decodeHA_wrlen, decodeHA_wrlen, show dataBytes 6#3 = 8 from rfl, hwidth]
  · rfl

theorem tableWord_bytes (w : Nat) : leBytes 33 w = BitVec.ofNat 8 w :: leBytes 32 (w / 256) := rfl

/-- A format S table word is read by its low four bits (R98). -/
theorem decodeS_of_decodeTableWord {nbits w : Nat} {i : Instr} (hf : tableFormat nbits = .s)
    (h : decodeTableWord nbits w = some i) : decodeS (BitVec.ofNat 4 w) = .ok i := by
  have hcode : (BitVec.ofNat 8 w).setWidth 4 = BitVec.ofNat 4 w := BitVec.setWidth_ofNat_of_le (by decide) w
  simp only [decodeTableWord, hf, tableWord_bytes, decode, hcode] at h
  cases hd : decodeS (BitVec.ofNat 4 w) with
  | error e => simp [hd, Except.map] at h
  | ok k => simpa [hd, Except.map] using h

/-- A format HA table word decodes as the host access it stands for (R99, R101). -/
theorem decodeAccess_of_decodeTableWord {nbits w : Nat} {i : Instr} (hf : tableFormat nbits = .ha)
    (h : decodeTableWord nbits w = some i) :
    decodeAccess (accessOfTableWord w).write (accessOfTableWord w).reg (accessOfTableWord w).data = .ok i := by
  have hsel : (BitVec.ofNat 8 w).setWidth 3 = BitVec.ofNat 3 w := BitVec.setWidth_ofNat_of_le (by decide) w
  have hlen := dataBytes_le (BitVec.ofNat 3 w)
  simp only [accessOfTableWord]
  rw [decodeAccess_of_lt _ (Nat.mod_lt w (by decide)), selector_of_tableWord]
  simp only [decodeTableWord, hf, tableWord_bytes, decode, hsel, leBytes_length, Nat.not_lt.mpr hlen, if_false,
    leBytes_take hlen, leValue_leBytes, decodeHA_mod] at h
  cases hd : decodeHA (BitVec.ofNat 3 w) (BitVec.ofNat 256 (w / 256)) with
  | error e => simp [hd, Except.map] at h
  | ok k => simpa [hd, Except.map] using h

/-- A turn put first on the agenda is the next step. -/
theorem step_planned (turn : Turn) (s : State) : step { s with agenda := turn :: s.agenda } = runTurn turn s := rfl

theorem withFetchWord_of_s {nbits : Nat} (s : State) (w : Nat) (hf : tableFormat nbits = .s) :
    s.withFetchWord nbits w = { positionAt (BitVec.ofNat 4 w) s with agenda := .seq :: s.agenda } := by
  rw [State.withFetchWord, hf]

theorem withFetchWord_of_ha {nbits : Nat} (s : State) (w : Nat) (hf : tableFormat nbits = .ha) :
    s.withFetchWord nbits w = { s with agenda := .host (accessOfTableWord w) :: s.agenda } := by
  rw [State.withFetchWord, hf]

/-- A placed format S word gives SEQ the next turn, in the phase it names. -/
theorem step_withFetchWord_of_s {nbits w : Nat} {i : Instr} (s : State) (hf : tableFormat nbits = .s)
    (hd : decodeS (BitVec.ofNat 4 w) = .ok i) :
    step (s.withFetchWord nbits w) = exec i (positionAt (BitVec.ofNat 4 w) s) := by
  have hseq : seqTurn (positionAt (BitVec.ofNat 4 w) s) = exec i (positionAt (BitVec.ofNat 4 w) s) := by
    rw [seqTurn, positionAt_phase, hd]
  rw [withFetchWord_of_s s w hf]
  exact (step_planned .seq (positionAt (BitVec.ofNat 4 w) s)).trans hseq

/-- A placed format HA word is the host's next access. -/
theorem step_withFetchWord_of_ha {nbits w : Nat} {i : Instr} (s : State) (hf : tableFormat nbits = .ha)
    (hd : decodeAccess (accessOfTableWord w).write (accessOfTableWord w).reg (accessOfTableWord w).data = .ok i) :
    step (s.withFetchWord nbits w) = exec i s := by
  have hhost : hostTurn (accessOfTableWord w) s = exec i s := by rw [hostTurn, hd]
  rw [withFetchWord_of_ha s w hf]
  exact (step_planned (.host (accessOfTableWord w)) s).trans hhost

/-- Settles O4, by the format of the table word. -/
theorem placedTableWordRunsAsDecoded : Obligations.PlacedTableWordRunsAsDecoded := by
  intro s nbits w i h
  cases hf : tableFormat nbits with
  | s =>
    have hd := decodeS_of_decodeTableWord hf h
    exact ⟨fun _ => step_withFetchWord_of_s s hf hd, fun hha => by simp [decodeS_format hd] at hha⟩
  | ha =>
    have hd := decodeAccess_of_decodeTableWord hf h
    exact ⟨fun hs => by simp [decodeAccess_format hd] at hs, fun _ => step_withFetchWord_of_ha s hf hd⟩

end Sys2Proof.Proofs

/-! # The memory: MSG by octets, the word stores out of range, the digest's octets, and host accesses during a run

Frames come first; then one group of lemmas per statement of 20_memory. -/

namespace Sys2Proof.Proofs

open Sys2Proof Sys2Proof.Machine Sys2Proof.Safety

/-! ## Frames -/

/-- A listed field that did not change after all need not be listed. -/
theorem frame_erase {changed : List Field} {f : Field} {s u : State} (h : Frame changed s u) (hf : f.same s u) :
    Frame (changed.erase f) s u := by
  intro g hg
  by_cases hgf : g = f
  · rwa [hgf]
  · exact h g fun hmem => hg ((List.mem_erase_of_ne hgf).mpr hmem)

theorem wexpNext_frame (s : State) : Frame [.w, .t, .phase, .draws] s (wexpNext s) := by
  intro f hf
  cases f with
  | w | t | phase | draws => simp at hf
  | _ => simp [Field.same]

theorem roundNext_frame (s : State) : Frame [.wv, .t, .phase, .draws] s (roundNext s) := by
  intro f hf
  cases f with
  | wv | t | phase | draws => simp at hf
  | _ => simp [Field.same]

theorem padNext_frame (s : State) : Frame [.blk, .pos, .phase, .draws] s (padNext s) := by
  intro f hf
  cases f with
  | blk | pos | phase | draws => simp at hf
  | _ => simp [Field.same]

/-! ## Operands out of range (R16, R62; log 11) -/

/-- T counts modulo 128: it is a 7-bit register (R29). -/
theorem t_succ_toNat_mod (t : BitVec 7) : (t + 1#7).toNat = (t.toNat + 1) % 128 := BitVec.toNat_add t 1#7

/-- With T below 16 the word WEXP writes depends on the draw alone. -/
theorem wexpNext_w_of_lt {s : State} (h : s.t.toNat < 16) :
    storeRead (wexpNext s).w s.t.toNat = Config.absentWord s.draws := by
  simp only [wexpNext, wexpWord, if_pos h]
  rw [storeRead_storeWrite _ _ _ (by omega), if_pos rfl]

theorem wexpNext_draws_of_lt {s : State} (h : s.t.toNat < 16) : (wexpNext s).draws = s.draws + 1 := if_pos h

/-- With T above 63 WEXP has no word to write. -/
theorem wexpNext_w_of_gt {s : State} (h : 63 < s.t.toNat) : (wexpNext s).w = s.w := storeWrite_of_le _ _ h

theorem wexpNext_phase_of_ne {s : State} (h : s.t.toNat ≠ 63) : (wexpNext s).phase = Phase.wexp := if_neg h

/-- With T above 63 ROUND runs on two free words. -/
theorem roundNext_wv_of_gt {s : State} (h : 63 < s.t.toNat) :
    (roundNext s).wv = roundWords s.wv (Config.absentWord s.draws) (Config.absentWord (s.draws + 1)) := if_pos h

theorem roundNext_draws_of_gt {s : State} (h : 63 < s.t.toNat) : (roundNext s).draws = s.draws + 2 := if_pos h

theorem roundNext_phase_of_ne {s : State} (h : s.t.toNat ≠ 63) : (roundNext s).phase = Phase.round := if_neg h

/-- With POS above MSG_LEN PAD takes a free chunk. -/
theorem padNext_blk_of_lt {s : State} (h : s.msgLen.toNat < s.pos.toNat) :
    (padNext s).blk = blockWords (blockOf (freeChunk s.draws) s.msgLen) := by
  simp only [padNext, padChunk_of_lt s.msg h]

theorem padNext_pos_of_lt {s : State} (h : s.msgLen.toNat < s.pos.toNat) :
    (padNext s).pos.toNat = (s.pos.toNat + (freeChunk s.draws).length) % 2 ^ 64 := by
  simp only [padNext, padChunk_of_lt s.msg h, BitVec.toNat_add, BitVec.toNat_ofNat, Nat.add_mod_mod]

theorem padNext_draws_of_lt {s : State} (h : s.msgLen.toNat < s.pos.toNat) : (padNext s).draws = s.draws + 1 :=
  if_pos h

/-- Bit n of the block of any chunk is bit 31 - n mod 32 of word n / 32 (R64, R92, R94). -/
theorem blockWords_blockOf_getLsbD {chunk : List Bool} (h : chunk.length ≤ 448) (len : BitVec 64) (i : Fin 16)
    (k : Fin 32) :
    (blockWords (blockOf chunk len))[i].getLsbD (31 - k.val) =
      let n := 32 * i.val + k.val
      if n < chunk.length then chunk.getD n false
      else if n < 448 then decide (n = chunk.length)
      else len.getLsbD (511 - n) := by
  have hi := i.isLt
  have hk := k.isLt
  have hword : (blockWords (blockOf chunk len))[i] = wordOfBits (blockOf chunk len) i.val := by simp [blockWords]
  have hbit := wordOfBits_getLsbD (blockOf chunk len) i.val k.val (by rw [blockOf_length h]; omega) hk
  rw [blockOf_getElem? h len (by omega)] at hbit
  rw [hword]
  dsimp only
  by_cases hc : 32 * i.val + k.val < chunk.length
  · rw [if_pos (by omega), if_pos hc, List.getElem?_eq_getElem hc] at hbit
    rw [if_pos hc, List.getD_eq_getElem _ _ hc]
    exact Option.some.inj hbit
  · rw [if_neg hc, ← Option.some_inj, hbit, if_neg hc]
    exact (apply_ite some _ _ _).symm

/-- Settles O17: in each range the operation's next state is the rule's, on free words or a free chunk. -/
theorem operandsOutOfRangeAreFree : Obligations.OperandsOutOfRangeAreFree := by
  refine fun s => ⟨fun hlow => ?_, fun hhigh => ?_, fun hhigh => ?_, fun hpast => ?_⟩
  · refine ⟨wexpNext s, Config.absentWord s.draws, rfl, wexpNext_w_of_lt hlow, fun i hi => wexpNext_w_other s hi,
      t_succ_toNat (by omega), wexpNext_phase_of_ne (by omega), wexpNext_draws_of_lt hlow, wexpNext_frame s, ?_⟩
    intro s' hlow' hdraws
    exact ⟨wexpNext s', rfl, hdraws ▸ wexpNext_w_of_lt hlow'⟩
  · have hframe : Frame [.t, .phase, .draws] s (wexpNext s) := 
      frame_erase (f := .w) (wexpNext_frame s) (wexpNext_w_of_gt hhigh)
    exact ⟨wexpNext s, rfl, t_succ_toNat_mod s.t, wexpNext_phase_of_ne (by omega),
      frame_erase (f := .draws) hframe (wexpNext_draws_of_le (show 16 ≤ s.t.toNat by omega))⟩
  · refine ⟨roundNext s, temp1 s.wv (Config.absentWord s.draws) (Config.absentWord (s.draws + 1)), rfl, ?_⟩
    rw [roundNext_wv_of_gt hhigh]
    exact ⟨rfl, rfl, rfl, rfl, rfl, rfl, rfl, rfl, t_succ_toNat_mod s.t, roundNext_phase_of_ne (by omega),
      roundNext_draws_of_gt hhigh, roundNext_frame s⟩
  · refine ⟨padNext s, freeChunk s.draws, rfl, freeChunk_length_le s.draws, ?_, padNext_pos_of_lt hpast, rfl,
      padNext_draws_of_lt hpast, padNext_frame s⟩
    rw [padNext_blk_of_lt hpast]
    exact blockWords_blockOf_getLsbD (freeChunk_length_le s.draws) s.msgLen

/-! ## The digest's octets and digits (R66, R182) -/

/-- Word i of the digest, HS[0] most significant (R182). -/
theorem digestOf_extractLsb' (hs : Eight) (i : Fin 8) : (digestOf hs).extractLsb' (224 - 32 * i.val) 32 = hs.get i := by
  change BitVec.extractLsb' _ 32
    (hs.a ++ hs.b ++ hs.c ++ hs.d ++ hs.e ++ hs.f ++ hs.g ++ hs.h : BitVec (32 + 32 + 32 + 32 + 32 + 32 + 32 + 32)) = _
  fin_cases i
  all_goals
    simp (disch := decide) only [BitVec.extractLsb'_append_eq_of_add_le, BitVec.extractLsb'_append_eq_of_le]
    exact BitVec.extractLsb'_eq_self

/-- A field of c bits at bit b of the 32-bit word at bit a of a number is the field at bit a + b. -/
theorem field_of_word (x a : Nat) {b c : Nat} (h : b + c ≤ 32) :
    x / 2 ^ (a + b) % 2 ^ c = x / 2 ^ a % 2 ^ 32 / 2 ^ b % 2 ^ c := by
  apply Nat.eq_of_testBit_eq
  intro n
  simp only [Nat.testBit_mod_two_pow, Nat.testBit_div_two_pow]
  by_cases hn : n < c
  · rw [decide_eq_true (show n + b < 32 by omega), Bool.true_and, Nat.add_assoc, Nat.add_comm b a]
  · simp [hn]

/-- A field of the digest inside word i is the same field of HS[i] (R66). -/
theorem digestOf_field (hs : Eight) (i : Fin 8) {b c : Nat} (h : b + c ≤ 32) :
    (digestOf hs).toNat / 2 ^ (224 - 32 * i.val + b) % 2 ^ c = (hs.get i).toNat / 2 ^ b % 2 ^ c := by
  rw [field_of_word _ _ h, ← digestOf_extractLsb' hs i, BitVec.extractLsb'_toNat, Nat.shiftRight_eq_div_pow]

theorem hexText_length (d : BitVec 256) : (hexText d).length = 64 := by simp [hexText]

theorem hexText_getElem? (d : BitVec 256) {n : Nat} (h : n < 64) :
    (hexText d)[n]? = some (hexDigit (d.toNat / 16 ^ (63 - n) % 16)) := by
  simp [hexText, h]

theorem hexDigit_alphabet {v : Nat} (h : v < 16) : "0123456789abcdef".toList[v]? = some (hexDigit v) := by
  revert v
  decide

/-- Octet 4i + k from the top lies at bit 24 - 8k of word i. -/
theorem octet_weight (i : Fin 8) (k : Fin 4) :
    256 ^ (31 - (4 * i.val + k.val)) = 2 ^ (224 - 32 * i.val + (24 - 8 * k.val)) := by
  rw [show 256 = 2 ^ 8 from rfl, ← Nat.pow_mul]
  congr 1
  omega

/-- Digit 8i + m from the top lies at bit 28 - 4m of word i. -/
theorem digit_weight (i m : Fin 8) : 16 ^ (63 - (8 * i.val + m.val)) = 2 ^ (224 - 32 * i.val + (28 - 4 * m.val)) := by
  rw [show 16 = 2 ^ 4 from rfl, ← Nat.pow_mul]
  congr 1
  omega

/-- Settles O32: an octet and a digit are fields of 8 and of 4 bits of one word. -/
theorem digestOctetsAndDigits : Obligations.DigestOctetsAndDigits := by
  refine ⟨fun v hv => hexDigit_alphabet hv, fun hs i => ⟨fun k => ?_, fun m => ?_, hexText_length _⟩⟩
  · rw [octet_weight]
    exact digestOf_field hs i (c := 8) (by omega)
  · have hfield := digestOf_field hs i (b := 28 - 4 * m.val) (c := 4) (by omega)
    rw [hexText_getElem? _ (by omega), digit_weight]
    exact congrArg (fun v => some (hexDigit v)) hfield

/-! ## MSG by octets (R61, R67, R264) -/

/-- Bit k of octet a of MSG is bit 7 - k of the octet (R67). -/
theorem bit_of_octet (m : Memory) (a : Nat) {k : Nat} (hk : k < 8) :
    m.bit (8 * a + k) = (m.read a).getLsbD (7 - k) := by
  rw [Memory.bit, show (8 * a + k) / 8 = a by omega, show (8 * a + k) % 8 = k by omega]

theorem bit_write_same {m : Memory} (h : m.wf = true) (a : Nat) (v : Byte) {k : Nat} (hk : k < 8) :
    (m.write a v).bit (8 * a + k) = v.getLsbD (7 - k) := by
  rw [bit_of_octet _ _ hk, Memory.read_write h, if_pos rfl]

theorem bit_write_other {m : Memory} (h : m.wf = true) {a i : Nat} (v : Byte) (hi : i / 8 ≠ a) :
    (m.write a v).bit i = m.bit i := by
  rw [Memory.bit, Memory.read_write h, if_neg hi, Memory.bit]

theorem messageTurn_of_busy {s : State} (h : s.busy = true) (a : BitVec 61) (v : Byte) :
    messageTurn a v s = .refused .messageChangedWhileBusy := if_pos h

theorem messageTurn_of_not_busy {s : State} (h : s.busy = false) (a : BitVec 61) (v : Byte) :
    messageTurn a v s = .next { s with msg := s.msg.write a.toNat v } := if_neg (by simp [h])

theorem message_frame (s : State) (m : Memory) (rest : List Turn) :
    Frame [.msg, .agenda] s { s with msg := m, agenda := rest } := by
  intro f hf
  cases f with
  | msg | agenda => simp at hf
  | _ => rfl

/-- Settles O33, by the outcome of the message turn in either value of BUSY. -/
theorem presentedOctetReadsBack : Obligations.PresentedOctetReadsBack := by
  intro s a v rest hwf hagenda
  have hstep : step s = messageTurn a v { s with agenda := rest } := step_of_cons hagenda
  rw [hstep]
  refine ⟨fun hidle => ?_, fun hbusy => messageTurn_of_busy (s := { s with agenda := rest }) hbusy a v⟩
  exact ⟨_, messageTurn_of_not_busy (s := { s with agenda := rest }) hidle a v, fun k hk => bit_write_same hwf _ v hk,
    fun i hi => bit_write_other hwf v hi, Memory.wf_write hwf a.isLt v, rfl, message_frame s _ rest⟩

end Sys2Proof.Proofs

/-! # Host accesses during a run (R74, R214, R215)

`seqStepsLeft` counts the SEQ steps up to DONE; as long as some are left the core is BUSY, and then a host access leaves the
core as it was. -/

namespace Sys2Proof.Proofs

open Sys2Proof Sys2Proof.Machine Sys2Proof.Safety

/-! ## The SEQ steps left in a run (R267) -/

/-- The blocks to come after the one POS has passed: the message bits left, in chunks of 448. -/
def blocksAfter (s : State) : Nat := (s.msgLen.toNat - s.pos.toNat + 447) / 448

/-- How many SEQ steps a state of a run is short of DONE; 0 outside a run. -/
def seqStepsLeft (s : State) : Nat :=
  match s.phase.toNat with
  | 1 => 1 + 116 * numBlocks s.msgLen
  | 2 => 116 * max 1 (blocksAfter s)
  | 3 => 115 + 116 * blocksAfter s
  | 4 => 64 - s.t.toNat + 66 + 116 * blocksAfter s
  | 5 => 66 + 116 * blocksAfter s
  | 6 => 64 - s.t.toNat + 1 + 116 * blocksAfter s
  | 7 => 1 + 116 * blocksAfter s
  | _ => 0

section PerPhase

variable {s : State}

theorem seqStepsLeft_of_init (hp : s.phase = Phase.init) : seqStepsLeft s = 1 + 116 * numBlocks s.msgLen := by
  simp [seqStepsLeft, hp]

theorem seqStepsLeft_of_pad (hp : s.phase = Phase.pad) : seqStepsLeft s = 116 * max 1 (blocksAfter s) := by
  simp [seqStepsLeft, hp]

theorem seqStepsLeft_of_wload (hp : s.phase = Phase.wload) : seqStepsLeft s = 115 + 116 * blocksAfter s := by
  simp [seqStepsLeft, hp]

theorem seqStepsLeft_of_wexp (hp : s.phase = Phase.wexp) :
    seqStepsLeft s = 64 - s.t.toNat + 66 + 116 * blocksAfter s := by
  simp [seqStepsLeft, hp]

theorem seqStepsLeft_of_cload (hp : s.phase = Phase.cload) : seqStepsLeft s = 66 + 116 * blocksAfter s := by
  simp [seqStepsLeft, hp]

theorem seqStepsLeft_of_round (hp : s.phase = Phase.round) :
    seqStepsLeft s = 64 - s.t.toNat + 1 + 116 * blocksAfter s := by
  simp [seqStepsLeft, hp]

theorem seqStepsLeft_of_feed (hp : s.phase = Phase.feed) : seqStepsLeft s = 1 + 116 * blocksAfter s := by
  simp [seqStepsLeft, hp]

theorem seqStepsLeft_of_done (hp : s.phase = Phase.done) : seqStepsLeft s = 0 := by
  simp [seqStepsLeft, hp]

theorem seqStepsLeft_of_not_busy (hb : s.busy = false) : seqStepsLeft s = 0 := by
  have hnot : ¬ (1 ≤ s.phase.toNat ∧ s.phase.toNat ≤ 7) := by simp [← busy_iff, hb]
  unfold seqStepsLeft
  split <;> omega

/-- With SEQ steps left the run goes on. -/
theorem busy_of_seqStepsLeft (h : 0 < seqStepsLeft s) : s.busy = true := by
  by_contra hb
  exact h.ne' (seqStepsLeft_of_not_busy (by simpa using hb))

end PerPhase

/-- PAD takes one chunk of what is left (R132). -/
theorem padNext_blocksAfter {s : State} (hle : s.pos.toNat ≤ s.msgLen.toNat) :
    blocksAfter (padNext s) + 1 = max 1 (blocksAfter s) := by
  rw [blocksAfter, blocksAfter, padNext_pos hle, padNext_msgLen]
  omega

/-- WEXP's next state is one step nearer to DONE, also where it goes on to CLOAD. -/
theorem wexpNext_seqStepsLeft {s : State} (h : ControlInv s) (hp : s.phase = Phase.wexp) :
    seqStepsLeft s = seqStepsLeft (wexpNext s) + 1 := by
  obtain ⟨-, h63⟩ := h.wexpT hp
  have hblocks : blocksAfter (wexpNext s) = blocksAfter s := rfl
  rw [seqStepsLeft_of_wexp hp]
  by_cases hlast : s.t.toNat = 63
  · rw [seqStepsLeft_of_cload (if_pos hlast), hblocks]
    omega
  · rw [seqStepsLeft_of_wexp (if_neg hlast), wexpNext_t, t_succ_toNat h63, hblocks]
    omega

/-- ROUND's next state is one step nearer to DONE, also where it goes on to FEED. -/
theorem roundNext_seqStepsLeft {s : State} (h : ControlInv s) (hp : s.phase = Phase.round) :
    seqStepsLeft s = seqStepsLeft (roundNext s) + 1 := by
  have h63 := h.roundT hp
  have hblocks : blocksAfter (roundNext s) = blocksAfter s := rfl
  rw [seqStepsLeft_of_round hp]
  by_cases hlast : s.t.toNat = 63
  · rw [seqStepsLeft_of_feed (if_pos hlast), hblocks]
    omega
  · rw [seqStepsLeft_of_round (if_neg hlast), roundNext_t, t_succ_toNat h63, hblocks]
    omega

/-- FEED's next state is one step nearer to DONE, or is DONE. -/
theorem feedNext_seqStepsLeft {s : State} (hp : s.phase = Phase.feed) :
    seqStepsLeft s = seqStepsLeft (feedNext s) + 1 := by
  have hblocks : blocksAfter (feedNext s) = blocksAfter s := rfl
  rw [seqStepsLeft_of_feed hp]
  by_cases hmore : s.pos.toNat < s.msgLen.toNat
  · rw [seqStepsLeft_of_pad (if_pos hmore), hblocks, blocksAfter]
    omega
  · rw [seqStepsLeft_of_done (if_neg hmore), blocksAfter]
    omega

/-- Every SEQ step of a run brings it one step nearer to DONE (R267). -/
theorem seq_move_seqStepsLeft {s u : State} (hm : Move s .seq u) (h : ControlInv s) (hb : s.busy = true) :
    seqStepsLeft s = seqStepsLeft u + 1 := by
  cases hm with
  | waits hp =>
    rw [busy_iff] at hb
    rcases hp with hp | hp | hp
    · simp [hp] at hb
    · simp [hp] at hb
    · omega
  | init hp =>
    rw [seqStepsLeft_of_init hp, seqStepsLeft_of_pad rfl]
    simp only [blocksAfter, numBlocks, BitVec.toNat_ofNat]
    omega
  | pad hp =>
    obtain ⟨-, hle, -⟩ := h.padPos hp
    have hblocks := padNext_blocksAfter hle
    rw [seqStepsLeft_of_pad hp, seqStepsLeft_of_wload rfl]
    omega
  | wload hp =>
    rw [seqStepsLeft_of_wload hp, seqStepsLeft_of_wexp rfl]
    simp only [blocksAfter, BitVec.toNat_ofNat]
    omega
  | wexp hp => exact wexpNext_seqStepsLeft h hp
  | cload hp =>
    rw [seqStepsLeft_of_cload hp, seqStepsLeft_of_round rfl]
    simp only [blocksAfter, BitVec.toNat_ofNat]
    omega
  | round hp => exact roundNext_seqStepsLeft h hp
  | feed hp => exact feedNext_seqStepsLeft hp

/-! ## SEQ's turn and its move -/

theorem decodeS_reserved {p : BitVec 4} (h : 9 ≤ p.toNat) : decodeS p = .error .reservedPhase := by
  revert p
  decide

/-- Every move of SEQ is what its turn answers: with `seqTurn_move`, the turn is the move. -/
theorem seqTurn_of_move {s u : State} (hm : Move s .seq u) : seqTurn s = .next u := by
  unfold seqTurn
  cases hm with
  | waits hp =>
    rcases hp with hp | hp | hp
    · rw [hp]
      rfl
    · rw [hp]
      rfl
    · rw [decodeS_reserved hp]
  | init hp | pad hp | wload hp | wexp hp | cload hp | round hp | feed hp =>
    rw [hp]
    rfl

/-- No move plans a turn or drops one. -/
theorem move_agenda {s u : State} {turn : Turn} (hm : Move s turn u) : u.agenda = s.agenda := by
  cases hm <;> rfl

/-! ## The core alone -/

/-- The state with no turn planned, and with another reply and draw counter: what is left of `s` is the core and MSG. -/
def alone (r : Reply) (d : Nat) (s : State) : State := { s with agenda := [], reply := r, draws := d }

section Alone

variable (r : Reply) (d : Nat)

theorem alone_seqStepsLeft (s : State) : seqStepsLeft (alone r d s) = seqStepsLeft s := rfl

theorem alone_frame {u : State} (h : u.agenda = []) : Frame [.reply, .draws] (alone r d u) u := by
  intro f hf
  cases f with
  | reply | draws => simp at hf
  | agenda => exact h
  | msg => exact ⟨rfl, fun _ => rfl⟩
  | _ => rfl

theorem padNext_alone {s : State} (hle : s.pos.toNat ≤ s.msgLen.toNat) :
    padNext (alone r d s) = alone r d (padNext s) := by
  have hnot : ¬ s.msgLen.toNat < s.pos.toNat := Nat.not_lt.mpr hle
  simp only [padNext, alone, padChunk_of_le s.msg hle, hnot, if_false]

theorem wexpNext_alone {s : State} (h16 : 16 ≤ s.t.toNat) : wexpNext (alone r d s) = alone r d (wexpNext s) := by
  have hnot : ¬ s.t.toNat < 16 := Nat.not_lt.mpr h16
  simp only [wexpNext, alone, wexpWord, hnot, if_false]
  rfl

theorem roundNext_alone {s : State} (h63 : s.t.toNat ≤ 63) : roundNext (alone r d s) = alone r d (roundNext s) := by
  have hnot : ¬ 63 < s.t.toNat := Nat.not_lt.mpr h63
  simp only [roundNext, alone, hnot, if_false]
  rfl

/-- Where R40 holds SEQ's move looks at nothing but the core and MSG, and draws nothing (R215). -/
theorem seq_move_alone {s u : State} (h : ControlInv s) (hm : Move s .seq u) :
    Move (alone r d s) .seq (alone r d u) := by
  cases hm with
  | waits hp => exact .waits hp
  | init hp => exact .init hp
  | pad hp =>
    obtain ⟨-, hle, -⟩ := h.padPos hp
    rw [← padNext_alone r d hle]
    exact .pad hp
  | wload hp => exact .wload hp
  | wexp hp =>
    obtain ⟨h16, -⟩ := h.wexpT hp
    rw [← wexpNext_alone r d h16]
    exact .wexp hp
  | cload hp => exact .cload hp
  | round hp =>
    rw [← roundNext_alone r d (h.roundT hp)]
    exact .round hp
  | feed hp => exact .feed hp

/-- While BUSY a host access leaves the core as it was (R214). -/
theorem host_move_alone {s u : State} {a : HostAccess} (hm : Move s (.host a) u) (hb : s.busy = true) :
    alone r d u = alone r d s := by
  cases hm with
  | hostNothing => rfl
  | hostStart _ ha => simp [busy_eq_false_of_accepts ha] at hb
  | hostLength _ ha => simp [busy_eq_false_of_accepts ha] at hb
  | hostRead => rfl

/-! ## One turn of a run, and all of them -/

variable {s : State} (h : ControlInv s) (hb : s.busy = true)
include h hb

/-- SEQ's turn in a run is the step of the core alone, one step nearer to DONE. -/
theorem seqTurn_in_run : ∃ u, seqTurn s = .next u ∧ ControlInv u ∧ u.agenda = s.agenda ∧
    seqStepsLeft s = seqStepsLeft u + 1 ∧ step (alone r d s) = .next (alone r d u) := by
  obtain ⟨u, hu, -⟩ := seqTurn_next s
  have hm := seqTurn_move hu
  refine ⟨u, hu, move_controlInv hm h, move_agenda hm, seq_move_seqStepsLeft hm h hb, ?_⟩
  rw [step_of_nil rfl]
  exact seqTurn_of_move (seq_move_alone r d h hm)

/-- A host access in a run leaves the core where it was. -/
theorem hostTurn_in_run (a : HostAccess) : ∃ u, hostTurn a s = .next u ∧ ControlInv u ∧ u.agenda = s.agenda ∧
    seqStepsLeft u = seqStepsLeft s ∧ alone r d u = alone r d s := by
  obtain ⟨u, hu, -⟩ := hostTurn_next a s
  have hm := hostTurn_move hu
  have halone := host_move_alone r d hm hb
  have hleft : seqStepsLeft u = seqStepsLeft s := by rw [← alone_seqStepsLeft r d u, halone, alone_seqStepsLeft]
  exact ⟨u, hu, move_controlInv hm h, move_agenda hm, hleft, halone⟩

end Alone

/-- Short of DONE, an agenda of SEQ turns and host accesses brings the core where its SEQ turns alone bring it. -/
theorem run_interleaved (r : Reply) (d : Nat) {turns : List Turn} {s : State} (h : ControlInv s)
    (hagenda : s.agenda = turns) (hturns : ∀ turn ∈ turns, turn = .seq ∨ ∃ a, turn = .host a)
    (hleft : turns.count .seq < seqStepsLeft s) :
    ∃ u : State, Sys2Proof.core.run turns.length s = .next u ∧ u.agenda = [] ∧
      Sys2Proof.core.run (turns.count .seq) (alone r d s) = .next (alone r d u) := by
  induction turns generalizing s with
  | nil => exact ⟨s, rfl, hagenda, rfl⟩
  | cons turn rest ih =>
    have hstep := step_of_cons hagenda
    have hc : ControlInv { s with agenda := rest } := controlInv_congr h rfl rfl rfl rfl
    have hb : ({ s with agenda := rest } : State).busy = true := busy_of_seqStepsLeft (Nat.zero_lt_of_lt hleft)
    have hrest : ∀ turn ∈ rest, turn = .seq ∨ ∃ a, turn = .host a := fun x hx => hturns x (List.mem_cons_of_mem _ hx)
    rcases hturns turn List.mem_cons_self with rfl | ⟨a, rfl⟩
    · obtain ⟨w, hw, hwc, hwagenda, hwleft, hwalone⟩ := seqTurn_in_run r d hc hb
      have hless : rest.count .seq + 1 < seqStepsLeft w + 1 := by
        rw [← hwleft, ← List.count_cons_self]
        exact hleft
      obtain ⟨u, hu, huagenda, hualone⟩ := ih hwc hwagenda hrest (Nat.lt_of_succ_lt_succ hless)
      rw [List.count_cons_self]
      exact ⟨u, (run_succ (hstep.trans hw) _).trans hu, huagenda, (run_succ hwalone _).trans hualone⟩
    · obtain ⟨w, hw, hwc, hwagenda, hwleft, hwalone⟩ := hostTurn_in_run r d hc hb a
      rw [List.count_cons_of_ne (by simp)] at hleft ⊢
      obtain ⟨u, hu, huagenda, hualone⟩ := ih hwc hwagenda hrest (hleft.trans_eq hwleft.symm)
      exact ⟨u, (run_succ (hstep.trans hw) _).trans hu, huagenda, hwalone ▸ hualone⟩

/-- Settles O50: a run has 1 + 116 N SEQ steps to make from INIT, and host accesses do not touch it until they are made. -/
theorem interleavingDoesNotMatter : Obligations.InterleavingDoesNotMatter := by
  intro s k hinit hturns hk hlt
  have hc : ControlInv s := controlInv_of_outsideBlocks (.inr (.inl hinit))
  have hleft : s.agenda.count .seq < seqStepsLeft s := by
    rw [seqStepsLeft_of_init hinit, hk]
    exact hlt
  obtain ⟨u, hu, hagenda, halone⟩ := run_interleaved s.reply s.draws hc rfl hturns hleft
  rw [hk] at halone
  exact ⟨u, alone s.reply s.draws u, hu, halone, alone_frame s.reply s.draws hagenda⟩

end Sys2Proof.Proofs

/-! # The encoding: the decoder and the encoder are inverse, and the code words name the steps

`decode_s_iff` and `decode_ha_iff` say what decodes in each format, in both directions; the round trips are their two
halves. -/

namespace Sys2Proof.Proofs

open Sys2Proof Sys2Proof.Machine Sys2Proof.Safety

/-! ## The operations' bytes (R98, R99; log 8) -/

/-- An encoding is the byte of the operation's code and the data it carries. -/
theorem encode_eq_cons (i : Instr) : encode i = BitVec.ofNat 8 i.code :: (encode i).tail := rfl

/-- Format S carries no operand (R98), so each of its operations is well formed and its code is all its encoding. -/
theorem wellFormed_of_format_s {i : Instr} (h : i.format = .s) : i.wellFormed = true := by
  cases i with
  | start | rdstatus | wrlen | rdlen | rddigest => cases h
  | _ => rfl

theorem encode_tail_of_format_s {i : Instr} (h : i.format = .s) : (encode i).tail = [] := by
  cases i with
  | start | rdstatus | wrlen | rdlen | rddigest => cases h
  | _ => rfl

theorem code_lt_of_format_s {i : Instr} (h : i.format = .s) : i.code < 16 := by
  cases i with
  | start | rdstatus | wrlen | rdlen | rddigest => cases h
  | _ => decide

theorem code_lt_of_format_ha {i : Instr} (h : i.format = .ha) : i.code < 8 := by
  cases i with
  | start | rdstatus | wrlen | rdlen | rddigest => simp [Instr.code]
  | _ => cases h

/-- A word of n bytes and its byte list determine each other. -/
theorem eq_leBytes_iff {n : Nat} (data : List Byte) (d : BitVec (8 * n)) :
    data = leBytes n d.toNat ↔ data.length = n ∧ BitVec.ofNat (8 * n) (leValue data) = d := by
  have hpow : 256 ^ n = 2 ^ (8 * n) := by rw [pow_mul]; rfl
  constructor
  · rintro rfl
    exact ⟨leBytes_length n d.toNat, BitVec.eq_of_toNat_eq (by simp [leValue_leBytes, hpow])⟩
  · rintro ⟨rfl, rfl⟩
    rw [BitVec.toNat_ofNat, Nat.mod_eq_of_lt (hpow ▸ leValue_lt data), leBytes_leValue]

/-! ## The decoder of format S (R98, R100) -/

theorem map_pair_eq_ok_iff {e : Except DecodeError Instr} {i : Instr} {bytes rest : List Byte} :
    (e.map fun k => (k, bytes)) = .ok (i, rest) ↔ e = .ok i ∧ bytes = rest := by
  cases e <;> simp [Except.map]

/-- A PHASE code decodes to the operation of format S whose code it is. -/
theorem decodeS_iff {p : BitVec 4} {i : Instr} : decodeS p = .ok i ↔ i.format = .s ∧ p.toNat = i.code := by
  constructor
  · intro h
    refine ⟨decodeS_format h, ?_⟩
    rcases decodeS_cases p with ⟨hp, hd⟩ | ⟨hp, hd⟩ | ⟨hp, hd⟩ | ⟨hp, hd⟩ | ⟨hp, hd⟩ | ⟨hp, hd⟩ | ⟨hp, hd⟩ |
      ⟨hp, hd⟩ | ⟨hp, hd⟩ | ⟨-, hd⟩ <;> rw [hd] at h <;> cases h <;> rw [hp] <;> rfl
  · rintro ⟨hf, hp⟩
    cases i with
    | start | rdstatus | wrlen | rdlen | rddigest => cases hf
    | _ =>
      unfold decodeS
      rw [hp]
      rfl

/-- What decodes in format S: one byte, by its low four bits. -/
theorem decode_s_iff {bytes : List Byte} {i : Instr} {rest : List Byte} :
    decode .s bytes = .ok (i, rest) ↔ i.wellFormed = true ∧ i.format = .s ∧
      ∃ b : Byte, bytes = b :: ((encode i).tail ++ rest) ∧ b.toNat % 16 = i.code := by
  have hcode (b : Byte) : (b.setWidth 4).toNat = b.toNat % 16 := BitVec.toNat_setWidth 4 b
  constructor
  · intro h
    cases bytes with
    | nil => cases h
    | cons b tail =>
      obtain ⟨hd, rfl⟩ := map_pair_eq_ok_iff.mp h
      obtain ⟨hf, hp⟩ := decodeS_iff.mp hd
      refine ⟨wellFormed_of_format_s hf, hf, b, ?_, hcode b ▸ hp⟩
      rw [encode_tail_of_format_s hf, List.nil_append]
  · rintro ⟨-, hf, b, rfl, hb⟩
    refine map_pair_eq_ok_iff.mpr ⟨decodeS_iff.mpr ⟨hf, (hcode b).trans hb⟩, ?_⟩
    rw [encode_tail_of_format_s hf, List.nil_append]

/-! ## The decoder of format HA (R99, R101) -/

/-- START takes the low four bytes of the data (R63; log 14). -/
theorem decodeHA_start_ofNat (v : Nat) : decodeHA 4#3 (BitVec.ofNat 256 v) =
    if (BitVec.ofNat 32 v).getLsbD 0 then .ok (.start (BitVec.ofNat 32 v)) else .error .ctrlWriteWithoutStart := by
  rw [decodeHA_start, BitVec.setWidth_ofNat_of_le (by decide)]
  simp only [BitVec.getLsbD_ofNat, Nat.zero_lt_succ]

/-- WRLEN takes the low eight bytes of the data (R63; log 14). -/
theorem decodeHA_wrlen_ofNat (v : Nat) :
    decodeHA 6#3 (BitVec.ofNat 256 v) = .ok (.wrlen (BitVec.ofNat 64 v)) := by
  rw [decodeHA_wrlen, BitVec.setWidth_ofNat_of_le (by decide)]

/-- A selector with its data bytes decodes to the well-formed operation of format HA that has that code and that data. -/
theorem decodeHA_iff {sel : BitVec 3} {data : List Byte} {i : Instr} :
    (data.length = dataBytes sel ∧ decodeHA sel (BitVec.ofNat 256 (leValue data)) = .ok i) ↔
      i.wellFormed = true ∧ i.format = .ha ∧ sel.toNat = i.code ∧ data = (encode i).tail := by
  constructor
  · rintro ⟨hlen, h⟩
    rcases selector_cases sel with rfl | rfl | rfl | rfl | rfl | rfl | rfl | rfl
    · cases h
    · cases h
      exact ⟨rfl, rfl, rfl, List.eq_nil_of_length_eq_zero hlen⟩
    · cases h
      exact ⟨rfl, rfl, rfl, List.eq_nil_of_length_eq_zero hlen⟩
    · cases h
      exact ⟨rfl, rfl, rfl, List.eq_nil_of_length_eq_zero hlen⟩
    · rw [decodeHA_start_ofNat] at h
      split at h
      · rename_i hbit
        cases h
        exact ⟨hbit, rfl, rfl, (eq_leBytes_iff (n := 4) data _).mpr ⟨hlen, rfl⟩⟩
      · cases h
    · cases h
    · rw [decodeHA_wrlen_ofNat] at h
      cases h
      exact ⟨rfl, rfl, rfl, (eq_leBytes_iff (n := 8) data _).mpr ⟨hlen, rfl⟩⟩
    · cases h
  · rintro ⟨hwf, hf, hsel, rfl⟩
    obtain rfl : sel = BitVec.ofNat 3 i.code := by rw [← hsel, BitVec.ofNat_toNat, BitVec.setWidth_eq]
    cases i with
    | start d =>
      obtain ⟨hlen, hd⟩ : _ ∧ BitVec.ofNat 32 (leValue (encode (.start d)).tail) = d :=
        (eq_leBytes_iff (n := 4) _ d).mp rfl
      refine ⟨hlen, (decodeHA_start_ofNat _).trans ?_⟩
      rw [hd]
      exact if_pos hwf
    | wrlen d =>
      obtain ⟨hlen, hd⟩ : _ ∧ BitVec.ofNat 64 (leValue (encode (.wrlen d)).tail) = d :=
        (eq_leBytes_iff (n := 8) _ d).mp rfl
      refine ⟨hlen, (decodeHA_wrlen_ofNat _).trans ?_⟩
      rw [hd]
    | rdstatus | rdlen | rddigest => exact ⟨rfl, rfl⟩
    | _ => cases hf

/-- The decoder of format HA cuts the bytes into the selector's, the data its selector announces, and the rest. -/
theorem decode_ha_cut {b : Byte} {tail : List Byte} {i : Instr} {rest : List Byte} :
    decode .ha (b :: tail) = .ok (i, rest) ↔ ∃ data : List Byte, tail = data ++ rest ∧
      data.length = dataBytes (b.setWidth 3) ∧
      decodeHA (b.setWidth 3) (BitVec.ofNat 256 (leValue data)) = .ok i := by
  simp only [decode]
  constructor
  · intro h
    split at h
    · cases h
    · rename_i hlen
      obtain ⟨hd, rfl⟩ := map_pair_eq_ok_iff.mp h
      exact ⟨_, (List.take_append_drop _ tail).symm, List.length_take_of_le (Nat.not_lt.mp hlen), hd⟩
  · rintro ⟨data, rfl, hlen, hd⟩
    rw [if_neg (by simp [hlen]), List.take_left' hlen, List.drop_left' hlen, hd]
    rfl

/-- What decodes in format HA: a byte, by its low three bits, and the data bytes. -/
theorem decode_ha_iff {bytes : List Byte} {i : Instr} {rest : List Byte} :
    decode .ha bytes = .ok (i, rest) ↔ i.wellFormed = true ∧ i.format = .ha ∧
      ∃ b : Byte, bytes = b :: ((encode i).tail ++ rest) ∧ b.toNat % 8 = i.code := by
  have hcode (b : Byte) : (b.setWidth 3).toNat = b.toNat % 8 := BitVec.toNat_setWidth 3 b
  constructor
  · intro h
    cases bytes with
    | nil => cases h
    | cons b tail =>
      obtain ⟨data, rfl, hdata⟩ := decode_ha_cut.mp h
      obtain ⟨hwf, hf, hsel, rfl⟩ := decodeHA_iff.mp hdata
      exact ⟨hwf, hf, b, rfl, hcode b ▸ hsel⟩
  · rintro ⟨hwf, hf, b, rfl, hb⟩
    exact decode_ha_cut.mpr ⟨_, rfl, decodeHA_iff.mpr ⟨hwf, hf, (hcode b).trans hb, rfl⟩⟩

/-! ## The round trips -/

/-- Settles O1: the byte of the code, reduced to the width of the format's code, is the code. -/
theorem decodeOfEncodeIsTheInstruction : Obligations.DecodeOfEncodeIsTheInstruction := by
  intro i rest hwf
  rw [encode_eq_cons i, List.cons_append]
  cases hf : i.format with
  | s =>
    have hlt := code_lt_of_format_s hf
    exact decode_s_iff.mpr ⟨hwf, hf, _, rfl, by rw [BitVec.toNat_ofNat]; omega⟩
  | ha =>
    have hlt := code_lt_of_format_ha hf
    exact decode_ha_iff.mpr ⟨hwf, hf, _, rfl, by rw [BitVec.toNat_ofNat]; omega⟩

/-- Settles O2, by the format. -/
theorem decodedBytesAreTheEncoding : Obligations.DecodedBytesAreTheEncoding := by
  intro f bytes i rest h
  cases f with
  | s => exact decode_s_iff.mp h
  | ha => exact decode_ha_iff.mp h

/-! ## Host accesses that change nothing (R105, R210) -/

/-- A write of CTRL, with or without its bit 0: only START's bit and IDLE or DONE make it count (R32, R105, R203). -/
theorem hostTurn_writeCtrl (data : BitVec 256) (s : State) : hostTurn ⟨true, 0, data⟩ s =
    .next (if data.getLsbD 0 && s.accepts then { s with phase := Phase.init } else s) := by
  have hdecode : decodeAccess true 0 data = decodeHA 4#3 data := rfl
  unfold hostTurn
  rw [hdecode, decodeHA_start]
  cases hb : data.getLsbD 0 with
  | false => rfl
  | true => simp [exec, execStart, hb]

theorem accepts_eq_false_of_busy {s : State} (h : s.busy = true) : s.accepts = false :=
  Bool.eq_false_iff.mpr fun ha => by simp [busy_eq_false_of_accepts ha] at h

theorem hostTurn_writeCtrl_of_clear {data : BitVec 256} (h : data.getLsbD 0 = false) (s : State) :
    hostTurn ⟨true, 0, data⟩ s = .next s := by
  rw [hostTurn_writeCtrl, h, Bool.false_and, if_neg Bool.false_ne_true]

theorem hostTurn_writeCtrl_of_busy {s : State} (h : s.busy = true) (data : BitVec 256) :
    hostTurn ⟨true, 0, data⟩ s = .next s := by
  rw [hostTurn_writeCtrl, accepts_eq_false_of_busy h, Bool.and_false, if_neg Bool.false_ne_true]

theorem hostTurn_writeLength_of_busy {s : State} (h : s.busy = true) (data : BitVec 256) :
    hostTurn ⟨true, 2, data⟩ s = .next s :=
  congrArg Host.Outcome.next (if_neg (ne_true_of_eq_false (accepts_eq_false_of_busy h)))

theorem hostTurn_writeDigest (data : BitVec 256) (s : State) : hostTurn ⟨true, 3, data⟩ s = .next s := rfl

theorem hostTurn_readCtrl (data : BitVec 256) (s : State) :
    hostTurn ⟨false, 0, data⟩ s = .next { s with reply := .word 0#32 } := rfl

theorem hostTurn_readStatus (data : BitVec 256) (s : State) :
    hostTurn ⟨false, 1, data⟩ s = .next { s with reply := .word s.status } := rfl

/-- An access of a register above 3 is reserved: it selects no row (R63, R105). -/
theorem hostTurn_absentRegister {reg : Nat} (h : 3 < reg) (write : Bool) (data : BitVec 256) (s : State) :
    hostTurn ⟨write, reg, data⟩ s = reservedAccess ⟨write, reg, data⟩ s := by
  have hdecode : decodeAccess write reg data = .error .absentRegister := if_neg (Nat.not_lt.mpr h)
  unfold hostTurn
  rw [hdecode]

/-- Settles O7: each access by what the host's turn answers for its register, in the state with the turn taken. -/
theorem reservedAccessesHaveNoEffect : Obligations.ReservedAccessesHaveNoEffect := by
  intro s rest data reg after dropped returns
  have hafter (a : HostAccess) : after a = hostTurn a { s with agenda := rest } := rfl
  simp only [hafter]
  refine ⟨fun h => hostTurn_writeCtrl_of_clear h _, fun d h => ?_, hostTurn_writeStatus data _,
    hostTurn_writeDigest data _,
    fun h => ⟨hostTurn_absentRegister h true data _, hostTurn_absentRegister h false data _⟩,
    fun h => ⟨hostTurn_writeLength_of_busy (s := { s with agenda := rest }) h data,
      hostTurn_writeCtrl_of_busy (s := { s with agenda := rest }) h data⟩,
    hostTurn_readCtrl data _, hostTurn_readStatus data _, fun n hn => status_getLsbD_reserved s hn⟩
  rw [hostTurn_writeCtrl, hostTurn_writeCtrl, h]

/-! ## The code words and the steps they name (R98 to R101, R200) -/

/-- Settles O3: the words of the two tables, one by one. -/
theorem codeWordsDecode : Obligations.CodeWordsDecode := by
  refine ⟨rfl, rfl, rfl, rfl, rfl, rfl, rfl, rfl, rfl, fun p hp => decodeS_reserved hp, fun data =>
    ⟨fun h => ?_, fun h => ?_, rfl, rfl, rfl, rfl, rfl, rfl, rfl⟩⟩
  · rw [decodeHA_start, if_pos h]
  · rw [decodeHA_start, if_neg (ne_true_of_eq_false h)]

theorem seqTurn_of_decodeS {s : State} {i : Instr} (h : decodeS s.phase = .ok i) : seqTurn s = exec i s := by
  rw [seqTurn, h]

theorem hostTurn_of_decodeAccess {a : HostAccess} {i : Instr} (h : decodeAccess a.write a.reg a.data = .ok i)
    (s : State) : hostTurn a s = exec i s := by
  rw [hostTurn, h]

/-- Settles O5: either form of the agenda gives SEQ the turn. -/
theorem seqStepRunsTheOperationOfPhase : Obligations.SeqStepRunsTheOperationOfPhase := by
  intro s i h
  refine ⟨fun hnil => (step_of_nil hnil).trans (seqTurn_of_decodeS h), fun rest hcons => ?_⟩
  exact (step_of_cons hcons).trans (seqTurn_of_decodeS (s := { s with agenda := rest }) h)

/-- Settles O6: the turn planned first is the host's. -/
theorem hostStepRunsTheDecodedAccess : Obligations.HostStepRunsTheDecodedAccess :=
  fun _ _ _ _ hcons h => (step_of_cons hcons).trans (hostTurn_of_decodeAccess h _)

/-! ## The reserved PHASE codes (R104, 93 U4) -/

section Reserved

variable {s : State} (h : 9 ≤ s.phase.toNat)
include h

theorem phase_ne_of_reserved {p : BitVec 4} (hp : p.toNat ≤ 8) : s.phase ≠ p := by
  rintro rfl
  omega

theorem accepts_eq_false_of_reserved : s.accepts = false := by
  rw [Bool.eq_false_iff, ne_eq, accepts_iff]
  exact not_or.mpr ⟨phase_ne_of_reserved h (by decide), phase_ne_of_reserved h (by decide)⟩

theorem status_eq_zero_of_reserved : s.status = 0#32 := by
  rw [status_eq_zero_iff, Bool.eq_false_iff, Bool.eq_false_iff, ne_eq, ne_eq, busy_iff, isDone_iff]
  omega

theorem seqTurn_of_reserved : seqTurn s = .next s := by rw [seqTurn, decodeS_reserved h]

theorem execStart_of_reserved (data : BitVec 32) : execStart data s = .next s := by
  simp [execStart, accepts_eq_false_of_reserved h]

theorem execWrlen_of_reserved (data : BitVec 64) : execWrlen data s = .next s := by
  simp [execWrlen, accepts_eq_false_of_reserved h]

/-- Only a reset leaves a reserved code: every row of SEQ has a code of the table, and START is not accepted. -/
theorem move_phase_of_reserved {turn : Turn} {u : State} (hm : Move s turn u) (hturn : turn ≠ .reset) :
    u.phase = s.phase := by
  cases hm with
  | waits | hostNothing | hostLength | hostRead | message => rfl
  | init hp | pad hp | wload hp | wexp hp | cload hp | round hp | feed hp =>
    exact absurd hp (phase_ne_of_reserved h (by decide))
  | hostStart _ ha => simp [accepts_eq_false_of_reserved h] at ha
  | reset => exact absurd rfl hturn

end Reserved

/-- Settles O8, in the state with the turn taken, which has the same PHASE. -/
theorem reservedPhaseIsStuck : Obligations.ReservedPhaseIsStuck := by
  intro s h
  have htaken : 9 ≤ (takeTurn s).2.phase.toNat := by rwa [takeTurn_phase]
  refine ⟨fun hseq => (step_of_seq hseq).trans (seqTurn_of_reserved htaken), status_eq_zero_of_reserved h,
    execStart_of_reserved h, execWrlen_of_reserved h, fun u hu hturn => ?_⟩
  rw [move_phase_of_reserved htaken (step_move hu) hturn, takeTurn_phase]

end Sys2Proof.Proofs

/-! # The constants: K and H0 are the low words of the integer roots of the first primes

`rootBits_spec` says that the bit by bit search of the root formulas gives the integer root; the tables of R121 and R123 are
then compared with the formulas, entry by entry. -/

namespace Sys2Proof.Proofs

open Sys2Proof Sys2Proof.Machine

/-! ## The primes (R124) -/

/-- Trial division by every number from 2 to n - 1 decides primality. -/
theorem isPrime_iff (n : Nat) : isPrime n = true ↔ Nat.Prime n := by
  rw [Nat.prime_def_lt']
  simp only [isPrime, Bool.and_eq_true, decide_eq_true_eq, List.all_eq_true, List.mem_range, Bool.or_eq_true,
    bne_iff_ne, Nat.dvd_iff_mod_eq_zero]
  refine and_congr_right fun _ => forall_congr' fun d => ?_
  rw [← not_le (a := 2), ← imp_iff_not_or]
  exact imp.swap

theorem mem_primes_iff (n : Nat) : n ∈ primes ↔ Nat.Prime n ∧ n ≤ 311 := by
  rw [primes, List.mem_filter, List.mem_range, isPrime_iff, and_comm, Nat.lt_succ_iff]

theorem primes_pairwise_lt : primes.Pairwise (· < ·) := List.pairwise_lt_range.filter _

/-- Past the end of the list the 0 read is below the bound too. -/
theorem primes_getD_le (t : Nat) : primes.getD t 0 ≤ 311 := by
  rw [List.getD_eq_getElem?_getD]
  cases h : primes[t]? with
  | none => exact Nat.zero_le _
  | some p => exact ((mem_primes_iff p).mp (List.mem_of_getElem? h)).2

theorem primes_getD_lt_of_fin : ∀ i : Fin 8, primes.getD i.val 0 < 2 ^ 8 := by decide +kernel

/-! ## The integer roots (R120, R122) -/

/-- The search keeps the root between the bits already found and the end of the range still open. -/
theorem rootBits_spec {k n : Nat} (bits : Nat) {r : Nat} (hlow : r ^ k ≤ n) (hhigh : n < (r + 2 ^ bits) ^ k) :
    rootBits k n bits r ^ k ≤ n ∧ n < (rootBits k n bits r + 1) ^ k := by
  induction bits generalizing r with
  | zero => exact ⟨hlow, hhigh⟩
  | succ bits ih =>
    rw [rootBits]
    by_cases hbit : (r + 2 ^ bits) ^ k ≤ n
    · rw [if_pos hbit]
      refine ih hbit ?_
      rwa [Nat.add_assoc, ← Nat.two_mul, ← Nat.pow_succ']
    · rw [if_neg hbit]
      exact ih hlow (Nat.lt_of_not_le hbit)

theorem rootBits_isRoot {k n : Nat} (hk : k ≠ 0) {bits : Nat} (h : n < (2 ^ bits) ^ k) :
    rootBits k n bits 0 ^ k ≤ n ∧ n < (rootBits k n bits 0 + 1) ^ k := by
  refine rootBits_spec bits ?_ ?_
  · rw [Nat.zero_pow (Nat.pos_of_ne_zero hk)]
    exact Nat.zero_le n
  · rwa [Nat.zero_add]

/-- The formula of K for every number below 2^12: the cube root has 36 bits. -/
theorem kFormula_root {p : Nat} (hp : p < 2 ^ 12) :
    ∃ r : Nat, r ^ 3 ≤ p * 2 ^ 96 ∧ p * 2 ^ 96 < (r + 1) ^ 3 ∧ (kFormula p).toNat = r % 2 ^ 32 := by
  have hbits : p * 2 ^ 96 < (2 ^ 36) ^ 3 := by omega
  obtain ⟨hlow, hhigh⟩ := rootBits_isRoot (by decide) hbits
  exact ⟨_, hlow, hhigh, BitVec.toNat_ofNat _ 32⟩

/-- The formula of H0 for every number below 2^8: the square root has 36 bits. -/
theorem h0Formula_root {p : Nat} (hp : p < 2 ^ 8) :
    ∃ r : Nat, r ^ 2 ≤ p * 2 ^ 64 ∧ p * 2 ^ 64 < (r + 1) ^ 2 ∧ (h0Formula p).toNat = r % 2 ^ 32 := by
  have hbits : p * 2 ^ 64 < (2 ^ 36) ^ 2 := by omega
  obtain ⟨hlow, hhigh⟩ := rootBits_isRoot (by decide) hbits
  exact ⟨_, hlow, hhigh, BitVec.toNat_ofNat _ 32⟩

/-! ## The tables are the formulas (R121, R123) -/

theorem map_kFormula_primes : primes.map kFormula = kTable := by decide +kernel

theorem length_primes : primes.length = 64 := by
  rw [← List.length_map kFormula, map_kFormula_primes]
  rfl

theorem kAt_eq_kFormula (t : Nat) : kAt t = kFormula (primes.getD t 0) := by
  have hzero : kFormula 0 = 0#32 := by decide +kernel
  rw [kAt, ← map_kFormula_primes, ← hzero, List.getD_map]

theorem h0_get_eq_h0Formula : ∀ i : Fin 8, h0.get i = h0Formula (primes.getD i.val 0) := by decide +kernel

/-- Settles O30: the tables are the formulas, and the primes are small enough for the formulas to give the roots. -/
theorem constantsAreTheRootsOfPrimes : Obligations.ConstantsAreTheRootsOfPrimes := by
  refine ⟨length_primes, mem_primes_iff, primes_pairwise_lt, fun t _ => ?_, fun i => ?_⟩
  · rw [kAt_eq_kFormula]
    exact kFormula_root ((primes_getD_le t).trans_lt (by decide))
  · rw [h0_get_eq_h0Formula]
    exact h0Formula_root (primes_getD_lt_of_fin i)

end Sys2Proof.Proofs

/-! # PAD: the block bit by bit, and PAD's block as block j of pad(MSG, L) (R131, R143) -/

namespace Sys2Proof.Proofs

open Sys2Proof Sys2Proof.Machine Sys2Proof.Safety

/-! ## One PAD (R131) -/

/-- Bit i of a string of message bits. -/
theorem memRead_getD (m : Memory) (addr : Nat) {n i : Nat} (h : i < n) :
    (m.memRead addr n).getD i false = m.bit (addr + i) := by
  simp [Memory.memRead, h]

/-- The padder's block bit by bit: the chunk, the marker and the zeros, then the length (R92, R94, R131). -/
theorem blockWords_blockBits_getLsbD (m : Memory) (len : BitVec 64) (pos : Nat) (i : Fin 16) (k : Fin 32) :
    (blockWords (blockBits m len pos))[i].getLsbD (31 - k.val) =
      let n := 32 * i.val + k.val
      let c := min 448 (len.toNat - pos)
      if n < c then m.bit (pos + n)
      else if n < 448 then decide (n = c)
      else len.getLsbD (511 - n) := by
  have hlen := memRead_length m pos (chunkLength len.toNat pos)
  have hbits := blockWords_blockOf_getLsbD (hlen.trans_le (chunkLength_le _ _)) len i k
  rw [hlen] at hbits
  refine hbits.trans (ite_congr rfl (fun hc => ?_) fun _ => rfl)
  exact memRead_getD m pos hc

/-- With POS up to L PAD makes no draw, so only BLK, POS and PHASE change. -/
theorem padNext_frame_of_le {s : State} (h : s.pos.toNat ≤ s.msgLen.toNat) :
    Frame [.blk, .pos, .phase] s (padNext s) :=
  frame_erase (f := .draws) (padNext_frame s) (padNext_draws_of_le h)

/-- Settles O10: the next state is `padNext s`, whose block is the padder's block at POS. -/
theorem padFormsTheBlock : Obligations.PadFormsTheBlock := by
  refine ⟨rfl, fun s hle => ⟨padNext s, rfl, fun i k => ?_, padNext_pos hle, rfl, padNext_frame_of_le hle⟩⟩
  rw [padNext_blk_of_le hle]
  exact blockWords_blockBits_getLsbD s.msg s.msgLen s.pos.toNat i k

/-! ## The blocks of a message (R137, R143) -/

/-- Every block starts within the message, at L itself only for the empty message. -/
theorem block_start_le {len : BitVec 64} {j : Nat} (h : j < numBlocks len) : 448 * j ≤ len.toNat := by
  unfold numBlocks at h
  omega

/-- A block with fewer than 448 message bits left at its start is the last (R143). -/
theorem eq_last_of_short_chunk {len : BitVec 64} {j : Nat} (h : j < numBlocks len)
    (hshort : min 448 (len.toNat - 448 * j) < 448) : j = numBlocks len - 1 := by
  unfold numBlocks at *
  omega

theorem padAll_length (m : Memory) (len : BitVec 64) : (padAll m len).length = numBlocks len := by
  rw [padAll, List.length_map, List.length_range]

theorem padAll_getElem? (m : Memory) {len : BitVec 64} {j : Nat} (h : j < numBlocks len) :
    (padAll m len)[j]? = some (padBlock m len j) := by
  rw [padAll, List.getElem?_map, List.getElem?_range h, Option.map_some]

/-- Settles O11: at POS = 448 j PAD forms the block that pad(MSG, L) has at j. -/
theorem padFollowsTheClosedForm : Obligations.PadFollowsTheClosedForm := by
  intro s j hj hpos
  have hle : s.pos.toNat ≤ s.msgLen.toNat := hpos.trans_le (block_start_le hj)
  have hblk : (padNext s).blk = padBlock s.msg s.msgLen j := by rw [padNext_blk_of_le hle, hpos, padBlock]
  have hend : (padNext s).pos.toNat = min s.msgLen.toNat (448 * (j + 1)) := by
    rw [padNext_pos hle]
    omega
  exact ⟨padNext s, rfl, hblk ▸ padAll_getElem? s.msg hj, hend, padAll_length s.msg s.msgLen,
    eq_last_of_short_chunk hj, padNext_frame_of_le hle⟩

end Sys2Proof.Proofs

/-! # The datapath and the schedule: sums, rotations and shifts bit by bit, WLOAD, WEXP and expand(BLK)

Sums of words come first, as the recurrence is one; then the bits of the rotations and shifts; then the scheduler's
operations and their run of 49 steps. -/

namespace Sys2Proof.Proofs

open Sys2Proof Sys2Proof.Machine Sys2Proof.Safety

/-! ## Addition (R150, R156) -/

/-- A sum that is still to be reduced takes one more word: it is enough to reduce at the end. -/
theorem add32_toNat_of_sum {x : Word} {n : Nat} (h : x.toNat = n % 2 ^ 32) (y : Word) :
    (add32 x y).toNat = (n + y.toNat) % 2 ^ 32 := by
  rw [add32_toNat, h, Nat.mod_add_mod]

theorem add32_four_toNat (x y z u : Word) :
    (add32 (add32 (add32 x y) z) u).toNat = (x.toNat + y.toNat + z.toNat + u.toNat) % 2 ^ 32 :=
  add32_toNat_of_sum (add32_toNat_of_sum (add32_toNat x y) z) u

/-- Settles O26: ADD32 is the addition of 32-bit words, and a fifth word is added to the sum of four. -/
theorem additionWraps : Obligations.AdditionWraps := fun x y z u v =>
  ⟨add32_toNat_of_sum (add32_four_toNat x y z u) v, add32_toNat x y, BitVec.add_comm x y, BitVec.add_assoc x y z,
    BitVec.add_zero x⟩

/-! ## Rotations and shifts (R151, R152) -/

theorem rotr_eq_or (x : Word) {n : Nat} (hn : n < 32) : rotr x n = (x >>> n) ||| (x <<< (32 - n)) :=
  BitVec.rotateRight_eq_rotateRightAux_of_lt hn

/-- A word whose bits are all the same is its own rotation. -/
theorem rotr_of_constant {x : Word} {b : Bool} (hx : ∀ i : Nat, i < 32 → x.getLsbD i = b) {n : Nat} (hn : n < 32) :
    rotr x n = x := by
  apply BitVec.eq_of_getLsbD_eq
  intro i hi
  rw [rotr_getLsbD x hn hi, hx i hi, hx _ (Nat.mod_lt _ (by decide))]

theorem rotr_zero {n : Nat} (hn : n < 32) : rotr 0#32 n = 0#32 :=
  rotr_of_constant (fun _ _ => BitVec.getLsbD_zero) hn

theorem rotr_allOnes {n : Nat} (hn : n < 32) : rotr 0xFFFFFFFF#32 n = 0xFFFFFFFF#32 :=
  rotr_of_constant (x := BitVec.allOnes 32) (fun _ hi => BitVec.getLsbD_allOnes.trans (decide_eq_true hi)) hn

/-- ROTR turns the list of the bits round by n places. -/
theorem rotr_bits_eq_rotate (x : Word) {n : Nat} (hn : n < 32) :
    (List.range 32).map (rotr x n).getLsbD = ((List.range 32).map x.getLsbD).rotate n := by
  apply List.ext_getElem
  · rw [List.length_rotate, List.length_map, List.length_map]
  · intro i hi _
    have hi32 : i < 32 := by simpa using hi
    simp [List.getElem_rotate, rotr_getLsbD x hn hi32]

/-- ROTR loses no bit: the one bits are as many as before. -/
theorem rotr_count (x : Word) {n : Nat} (hn : n < 32) :
    ((List.range 32).map (rotr x n).getLsbD).count true = ((List.range 32).map x.getLsbD).count true := by
  rw [rotr_bits_eq_rotate x hn]
  exact (List.rotate_perm _ n).count_eq true

/-- Bit i of SHR(x, n), with the zeros that come in at the top written out (R152). -/
theorem shr_getLsbD_eq_and (x : Word) (n i : Nat) :
    (shr x n).getLsbD i = (decide (i + n ≤ 31) && x.getLsbD (i + n)) := by
  rw [shr_getLsbD]
  by_cases h : i + n ≤ 31
  · rw [decide_eq_true h, Bool.true_and]
  · rw [decide_eq_false h, Bool.false_and, BitVec.getLsbD_of_ge x (i + n) (by omega)]

theorem shr_toNat (x : Word) (n : Nat) : (shr x n).toNat = x.toNat / 2 ^ n := by
  rw [shr, BitVec.toNat_ushiftRight, Nat.shiftRight_eq_div_pow]

/-- Settles O27, one lemma for each part. -/
theorem rotateAndShiftBits : Obligations.RotateAndShiftBits := fun x n i _ hn hi =>
  ⟨rotr_getLsbD x hn hi, rotr_eq_or x hn, rotr_zero hn, rotr_allOnes hn, rotr_count x hn, shr_getLsbD_eq_and x n i,
    shr_toNat x n⟩

/-! ## The sigma functions (R154, R155, R170, R172) -/

/-- Bit i of two rotations and a shift, the form of σ0 and σ1. -/
theorem rotr_xor_rotr_xor_shr_getLsbD (x : Word) {a b i : Nat} (ha : a < 32) (hb : b < 32) (c : Nat) (hi : i < 32) :
    (rotr x a ^^^ rotr x b ^^^ shr x c).getLsbD i =
      ((x.getLsbD ((i + a) % 32) ^^ x.getLsbD ((i + b) % 32)) ^^ (decide (i + c ≤ 31) && x.getLsbD (i + c))) := by
  rw [BitVec.getLsbD_xor, BitVec.getLsbD_xor, rotr_getLsbD x ha hi, rotr_getLsbD x hb hi, shr_getLsbD_eq_and]

/-- Bit i of three rotations, the form of S1 and S0. -/
theorem rotr_xor_rotr_xor_rotr_getLsbD (x : Word) {a b c i : Nat} (ha : a < 32) (hb : b < 32) (hc : c < 32)
    (hi : i < 32) : (rotr x a ^^^ rotr x b ^^^ rotr x c).getLsbD i =
      ((x.getLsbD ((i + a) % 32) ^^ x.getLsbD ((i + b) % 32)) ^^ x.getLsbD ((i + c) % 32)) := by
  rw [BitVec.getLsbD_xor, BitVec.getLsbD_xor, rotr_getLsbD x ha hi, rotr_getLsbD x hb hi, rotr_getLsbD x hc hi]

/-- Settles O28: the four functions are the two forms, each with its own amounts. -/
theorem sigmaBits : Obligations.SigmaBits := fun x _ hi =>
  ⟨rotr_xor_rotr_xor_shr_getLsbD x (a := 7) (b := 18) (by decide) (by decide) 3 hi,
    rotr_xor_rotr_xor_shr_getLsbD x (a := 17) (b := 19) (by decide) (by decide) 10 hi,
    rotr_xor_rotr_xor_rotr_getLsbD x (a := 6) (b := 11) (c := 25) (by decide) (by decide) (by decide) hi,
    rotr_xor_rotr_xor_rotr_getLsbD x (a := 2) (b := 13) (c := 22) (by decide) (by decide) (by decide) hi⟩

/-! ## The recurrence (R159, R160) -/

/-- The recurrence's value as a sum of naturals, reduced once (R156, R159). -/
theorem scheduleWord_toNat (w : Vector Word 64) (t : Nat) :
    (scheduleWord w t).toNat =
      ((storeRead w (t - 16)).toNat + (smallSigma0 (storeRead w (t - 15))).toNat +
        (storeRead w (t - 7)).toNat + (smallSigma1 (storeRead w (t - 2))).toNat) % 2 ^ 32 :=
  add32_four_toNat _ _ _ _

/-- Settles O45: below 16 the words are the block's, from 16 on the recurrence's value. -/
theorem expandFollowsTheRecurrence : Obligations.ExpandFollowsTheRecurrence := by
  refine fun b => ⟨fun t ht => expand_low b ht, fun t h16 h64 => ?_⟩
  rw [← scheduleWord_toNat, ← expand_high b h16 h64]

/-! ## WLOAD and WEXP (R158, R159) -/

theorem wload_frame (s : State) :
    Frame [.w, .t, .phase] s { s with w := loadBlock s.blk s.w, t := 16#7, phase := Phase.wexp } := by
  intro f hf
  cases f with
  | w | t | phase => simp at hf
  | _ => simp [Field.same]

/-- Settles O12: the words are the block's below 16 and W's own from there on. -/
theorem wloadCopiesTheBlock : Obligations.WloadCopiesTheBlock := by
  refine ⟨rfl, fun s => ⟨_, execWload_eq s, fun i hi => ?_, fun i h16 h64 => ?_, rfl, rfl, wload_frame s⟩⟩
  · rw [storeRead_loadBlock _ _ (by omega), if_pos hi]
  · rw [storeRead_loadBlock _ _ h64, if_neg (by omega)]

/-- Where the rule enables WEXP it makes no draw, so only W, T and PHASE change. -/
theorem wexpNext_frame_of_le {s : State} (h16 : 16 ≤ s.t.toNat) : Frame [.w, .t, .phase] s (wexpNext s) :=
  frame_erase (f := .draws) (wexpNext_frame s) (wexpNext_draws_of_le h16)

/-- Where the rule enables WEXP, W[T] becomes the recurrence's value. -/
theorem wexpNext_w_same {s : State} (h16 : 16 ≤ s.t.toNat) (h63 : s.t.toNat ≤ 63) :
    storeRead (wexpNext s).w s.t.toNat = scheduleWord s.w s.t.toNat := by
  rw [wexpNext_w_of_le h16, storeRead_storeWrite _ _ _ (by omega), if_pos rfl]

/-- Settles O13: the next state is `wexpNext s`. -/
theorem wexpComputesOneScheduleWord : Obligations.WexpComputesOneScheduleWord := by
  refine ⟨rfl, fun s h16 h63 => ⟨wexpNext s, rfl, ?_, fun i => wexpNext_w_other s, ?_, wexpNext_phase s,
    wexpNext_frame_of_le h16⟩⟩
  · rw [wexpNext_w_same h16 h63, scheduleWord_toNat]
  · rw [wexpNext_t, t_succ_toNat h63]

/-! ## The run of the scheduler (R157, R160) -/

theorem field_same_trans {f : Field} {s u v : State} (hsu : f.same s u) (huv : f.same u v) : f.same s v := by
  cases f with
  | msg =>
    obtain ⟨hmsg, hread⟩ := hsu
    obtain ⟨hmsg', hread'⟩ := huv
    exact ⟨hmsg'.trans hmsg, fun a => (hread' a).trans (hread a)⟩
  | _ => exact Eq.trans huv hsu

/-- What neither of two steps changes, both together do not change. -/
theorem frame_trans {changed : List Field} {s u v : State} (hsu : Frame changed s u) (huv : Frame changed u v) :
    Frame changed s v := fun f hf => field_same_trans (hsu f hf) (huv f hf)

/-- With no turn planned a step is SEQ's move. -/
theorem step_of_seq_move {s u : State} (hnil : s.agenda = []) (hm : Move s .seq u) : step s = .next u :=
  (step_of_nil hnil).trans (seqTurn_of_move hm)

/-- After WLOAD and k WEXP steps T is 16 + k, and W is the schedule of BLK below T (R157, R160). -/
theorem run_wload_wexp {s : State} (hnil : s.agenda = []) (hp : s.phase = Phase.wload) {k : Nat} (hk : k ≤ 48) :
    ∃ u : State, Sys2Proof.core.run (1 + k) s = .next u ∧ u.t.toNat = 16 + k ∧
      u.phase = (if k = 48 then Phase.cload else Phase.wexp) ∧
      (∀ i : Nat, i < 16 + k → storeRead u.w i = storeRead (expand s.blk) i) ∧ Frame [.w, .t, .phase] s u := by
  induction k with
  | zero =>
    have hstep := step_of_seq_move hnil (.wload hp)
    exact ⟨_, run_succ hstep 0, rfl, rfl, fun i hi => storeRead_loadBlock_eq_expand s.blk s.w hi, wload_frame s⟩
  | succ k ih =>
    obtain ⟨u, hrun, ht, hphase, hw, hframe⟩ := ih (by omega)
    have hblk : u.blk = s.blk := hframe .blk (by decide)
    have hagenda : u.agenda = [] := (hframe .agenda (by decide)).trans hnil
    have hwexp : u.phase = Phase.wexp := by rw [hphase, if_neg (by omega)]
    have h16 : 16 ≤ u.t.toNat := by omega
    have h63 : u.t.toNat ≤ 63 := by omega
    have hlast : u.t.toNat = 63 ↔ k + 1 = 48 := by omega
    have hstep := step_of_seq_move hagenda (.wexp hwexp)
    rw [← hblk, ← ht] at hw
    refine ⟨wexpNext u, (run_add 1 hrun).trans (run_succ hstep 0), ?_, ?_, fun i hi => ?_,
      frame_trans hframe (wexpNext_frame_of_le h16)⟩
    · rw [wexpNext_t, t_succ_toNat h63, ht, Nat.add_assoc]
    · simp only [wexpNext_phase, hlast]
    · rw [← hblk]
      exact wexpNext_w_eq_expand h16 h63 hw (by omega)

/-- Settles O46: after 48 WEXP steps W is the whole schedule, which follows the recurrence by O45. -/
theorem wloadAndWexpComputeExpand : Obligations.WloadAndWexpComputeExpand := by
  intro s hnil hp
  obtain ⟨u, hrun, ht, hphase, hwords, hframe⟩ := run_wload_wexp hnil hp (Nat.le_refl 48)
  have hw : u.w = expand s.blk := store_ext hwords
  obtain ⟨hlow, hhigh⟩ := expandFollowsTheRecurrence s.blk
  rw [← hw] at hlow hhigh
  exact ⟨u, hrun, hw, ht, hphase, hlow, hhigh, hframe⟩

end Sys2Proof.Proofs

/-! # The compression: CLOAD, ROUND and FEED, one block as process_block, and the run that ends with core_digest

The operations come first, one by one. `run_cload_round` counts the rounds of a block; a whole run follows `RunInv` down
`seqStepsLeft`, whose last step is the FEED that leaves the digest. -/

namespace Sys2Proof.Proofs

open Sys2Proof Sys2Proof.Machine Sys2Proof.Safety

/-! ## The round functions (R171, R173 to R175) -/

theorem ch_getLsbD (x y z : Word) {i : Nat} (hi : i < 32) :
    (ch x y z).getLsbD i = if x.getLsbD i then y.getLsbD i else z.getLsbD i := by
  simp only [ch, BitVec.getLsbD_xor, BitVec.getLsbD_and, BitVec.getLsbD_not, hi, decide_true, Bool.true_and]
  cases x.getLsbD i <;> simp

theorem maj_getLsbD (x y z : Word) (i : Nat) :
    (maj x y z).getLsbD i = decide (2 ≤ (x.getLsbD i).toNat + (y.getLsbD i).toNat + (z.getLsbD i).toNat) := by
  simp only [maj, BitVec.getLsbD_xor, BitVec.getLsbD_and]
  generalize x.getLsbD i = a, y.getLsbD i = b, z.getLsbD i = c
  revert a b c
  decide

/-- Settles O29: Ch by the bit of x, Maj by the eight cases of the three bits. -/
theorem chooseAndMajorityBits : Obligations.ChooseAndMajorityBits :=
  fun x y z i hi => ⟨ch_getLsbD x y z hi, maj_getLsbD x y z i⟩

/-- T1 is the sum of five words, reduced once (R156, R174). -/
theorem temp1_toNat (v : Eight) (k x : Word) :
    (temp1 v k x).toNat =
      (v.h.toNat + (bigSigma1 v.e).toNat + (ch v.e v.f v.g).toNat + k.toNat + x.toNat) % 2 ^ 32 :=
  add32_toNat_of_sum (add32_four_toNat v.h (bigSigma1 v.e) (ch v.e v.f v.g) k) x

theorem temp2_toNat (v : Eight) :
    (temp2 v).toNat = ((bigSigma0 v.a).toNat + (maj v.a v.b v.c).toNat) % 2 ^ 32 := add32_toNat _ _

/-- Adding a sum that is still to be reduced: it is enough to reduce at the end. -/
theorem add32_toNat_of_sum_right {y : Word} {n : Nat} (h : y.toNat = n % 2 ^ 32) (x : Word) :
    (add32 x y).toNat = (x.toNat + n) % 2 ^ 32 := by
  rw [add32_toNat, h, Nat.add_mod_mod]

/-! ## CLOAD (R177) -/

theorem cload_frame (s : State) : Frame [.wv, .t, .phase] s { s with wv := s.hs, t := 0#7, phase := Phase.round } := by
  intro f hf
  cases f with
  | wv | t | phase => simp at hf
  | _ => simp [Field.same]

/-- Settles O14: WV becomes HS as a whole. -/
theorem cloadCopiesTheHashState : Obligations.CloadCopiesTheHashState :=
  ⟨rfl, fun s => ⟨_, execCload_eq s, fun _ => rfl, rfl, rfl, cload_frame s⟩⟩

/-! ## ROUND (R178) -/

/-- Where the rule enables ROUND it makes no draw, so only WV, T and PHASE change. -/
theorem roundNext_frame_of_le {s : State} (h63 : s.t.toNat ≤ 63) : Frame [.wv, .t, .phase] s (roundNext s) :=
  frame_erase (f := .draws) (roundNext_frame s) (roundNext_draws_of_le h63)

/-- The new a is T1 + T2, on naturals, reduced once. -/
theorem roundWords_a_toNat (v : Eight) (k x : Word) :
    (roundWords v k x).a.toNat =
      (v.h.toNat + (bigSigma1 v.e).toNat + (ch v.e v.f v.g).toNat + k.toNat + x.toNat +
        ((bigSigma0 v.a).toNat + (maj v.a v.b v.c).toNat)) % 2 ^ 32 := by
  rw [roundWords, add32_toNat_of_sum (temp1_toNat v k x), temp2_toNat, Nat.add_mod_mod]

/-- The new e is d + T1, on naturals, reduced once. -/
theorem roundWords_e_toNat (v : Eight) (k x : Word) :
    (roundWords v k x).e.toNat =
      (v.d.toNat + (v.h.toNat + (bigSigma1 v.e).toNat + (ch v.e v.f v.g).toNat + k.toNat + x.toNat)) % 2 ^ 32 :=
  add32_toNat_of_sum_right (temp1_toNat v k x) v.d

/-- Settles O15: up to T = 63 the words are `roundWords` of K[T] and W[T]. -/
theorem roundUpdatesTheWorkingVariables : Obligations.RoundUpdatesTheWorkingVariables := by
  refine ⟨rfl, fun s h63 => ⟨roundNext s, rfl, ?_⟩⟩
  rw [roundNext_wv_of_le h63]
  exact ⟨⟨roundWords_a_toNat _ _ _, roundWords_e_toNat _ _ _⟩, rfl, rfl, rfl, rfl, rfl, rfl, t_succ_toNat h63,
    roundNext_phase s, roundNext_frame_of_le h63⟩

/-! ## FEED (R179, R180) -/

theorem feedNext_frame (s : State) : Frame [.hs, .phase] s (feedNext s) := by
  intro f hf
  cases f with
  | hs | phase => simp at hf
  | _ => simp [Field.same]

/-- HS[i] is added to WV[i], never crosswise. -/
theorem feedForward_get (hs wv : Eight) (i : Fin 8) : (feedForward hs wv).get i = add32 (hs.get i) (wv.get i) := by
  fin_cases i <;> rfl

/-- Settles O16: the next state is `feedNext s`, whose HS is added word by word. -/
theorem feedAddsAndDecides : Obligations.FeedAddsAndDecides := by
  refine ⟨rfl, fun s => ⟨feedNext s, rfl, fun i => ?_, feedNext_phase s, feedNext_frame s⟩⟩
  rw [feedNext_hs, feedForward_get, add32_toNat]

/-! ## One block (R176, R183) -/

theorem frame_mono {changed changed' : List Field} {s u : State} (h : Frame changed s u) (hsub : changed ⊆ changed') :
    Frame changed' s u := fun f hf => h f fun hmem => hf (hsub hmem)

/-- After CLOAD and k rounds T is k, and WV is v_k of HS and W (R183). -/
theorem run_cload_round {s : State} (hnil : s.agenda = []) (hp : s.phase = Phase.cload) {k : Nat} (hk : k ≤ 64) :
    ∃ u : State, Sys2Proof.core.run (1 + k) s = .next u ∧ u.t.toNat = k ∧
      u.phase = (if k = 64 then Phase.feed else Phase.round) ∧ u.wv = roundsFrom s.hs s.w k ∧
      Frame [.wv, .t, .phase] s u := by
  induction k with
  | zero => exact ⟨_, run_succ (step_of_seq_move hnil (.cload hp)) 0, rfl, rfl, rfl, cload_frame s⟩
  | succ k ih =>
    obtain ⟨u, hrun, ht, hphase, hwv, hframe⟩ := ih (by omega)
    have hhs : u.hs = s.hs := hframe .hs (by decide)
    have hw : u.w = s.w := hframe .w (by decide)
    have hagenda : u.agenda = [] := (hframe .agenda (by decide)).trans hnil
    have hround : u.phase = Phase.round := by rw [hphase, if_neg (by omega)]
    have h63 : u.t.toNat ≤ 63 := by omega
    have hlast : u.t.toNat = 63 ↔ k + 1 = 64 := by omega
    have hstep := step_of_seq_move hagenda (.round hround)
    rw [← hhs, ← hw, ← ht] at hwv
    refine ⟨roundNext u, (run_add 1 hrun).trans (run_succ hstep 0), ?_, ?_, ?_,
      frame_trans hframe (roundNext_frame_of_le h63)⟩
    · rw [roundNext_t, t_succ_toNat h63, ht]
    · simp only [roundNext_phase, hlast]
    · rw [roundNext_wv_eq_roundsFrom h63 hwv, hhs, hw, ht]

/-- Settles O47: FEED adds v_64 to HS, which CLOAD and the rounds have kept. -/
theorem compressionIsProcessBlock : Obligations.CompressionIsProcessBlock := by
  intro s hnil hp
  obtain ⟨u, hrun, -, hphase, hwv, hframe⟩ := run_cload_round hnil hp (Nat.le_refl 64)
  have hhs : u.hs = s.hs := hframe .hs (by decide)
  have hpos : u.pos = s.pos := hframe .pos (by decide)
  have hlen : u.msgLen = s.msgLen := hframe .msgLen (by decide)
  have hagenda : u.agenda = [] := (hframe .agenda (by decide)).trans hnil
  have hstep := step_of_seq_move hagenda (.feed hphase)
  refine ⟨feedNext u, (run_add 1 hrun).trans (run_succ hstep 0), ?_, ?_,
    frame_trans (frame_mono hframe (by decide)) (frame_mono (feedNext_frame u) (by decide))⟩
  · rw [feedNext_hs, hhs, hwv, processBlock]
  · rw [feedNext_phase, hpos, hlen]

/-! ## The last FEED (R180, R182, R185) -/

/-- A block that ends at L is the last of the N blocks (R137). -/
theorem numBlocks_eq_of_le {len : BitVec 64} {j : Nat} (hj : j < numBlocks len) (hle : len.toNat ≤ 448 * (j + 1)) :
    numBlocks len = j + 1 := by
  unfold numBlocks at *
  omega

/-- With no message bit left FEED enters DONE (R180). -/
theorem feedNext_phase_of_le {s : State} (hle : s.msgLen.toNat ≤ s.pos.toNat) : (feedNext s).phase = Phase.done :=
  if_neg (Nat.not_lt.mpr hle)

/-- The FEED of the last block leaves the hash state after all N blocks. -/
theorem feedNext_digest {s : State} (h : RunInv s) (hp : s.phase = Phase.feed)
    (hle : s.msgLen.toNat ≤ s.pos.toNat) : (feedNext s).digest = coreDigest s.msg s.msgLen := by
  obtain ⟨j, hj, hw, hwv⟩ := h.feed hp
  have hlast : numBlocks s.msgLen = j + 1 := by
    refine numBlocks_eq_of_le hj.index ?_
    have := hj.pos
    omega
  rw [State.digest, feedNext_hs_eq_chainState hj hw hwv, coreDigest, hlast]

/-- Settles O41: SEQ's turn is FEED, from the state with that turn taken. -/
theorem lastFeedLeavesTheCoreDigest : Obligations.LastFeedLeavesTheCoreDigest := by
  intro s h hp hseq hle
  have hfeed : (takeTurn s).2.phase = Phase.feed := (takeTurn_phase s).trans hp
  have hend : (takeTurn s).2.msgLen.toNat ≤ (takeTurn s).2.pos.toNat := by rwa [takeTurn_msgLen, takeTurn_pos]
  have hdone : (feedNext (takeTurn s).2).isDone = true := by
    rw [isDone_iff, feedNext_phase_of_le hend]
    rfl
  have hdigest := feedNext_digest (takeTurn_runInv h) hfeed hend
  rw [takeTurn_msg, takeTurn_msgLen] at hdigest
  exact ⟨_, (step_of_seq hseq).trans (seqTurn_of_move (.feed hfeed)), hdone, hdigest⟩

/-! ## The whole run (R185, R215, R267) -/

/-- What SEQ's move never changes: MSG, MSG_LEN, the turns to come and the host's last reply. -/
theorem seq_move_frame {s u : State} (hm : Move s .seq u) :
    Frame [.hs, .wv, .blk, .w, .pos, .t, .phase, .draws] s u := by
  intro f hf
  cases f with
  | hs | wv | blk | w | pos | t | phase | draws => simp at hf
  | msgLen | agenda | reply => cases hm <;> rfl
  | msg =>
    have hmsg : u.msg = s.msg := by cases hm <;> rfl
    exact ⟨hmsg, fun _ => by rw [hmsg]⟩

/-- The last SEQ step of a run is the FEED of the block that ends at L. -/
theorem last_step_is_feed {s : State} (h : ControlInv s) (hleft : seqStepsLeft s = 1) :
    s.phase = Phase.feed ∧ s.msgLen.toNat ≤ s.pos.toNat := by
  unfold seqStepsLeft at hleft
  split at hleft
  case h_1 =>
    have hblocks := numBlocks_pos s.msgLen
    omega
  case h_6 hround =>
    have h63 := h.roundT (BitVec.eq_of_toNat_eq hround)
    omega
  case h_7 hfeed =>
    have hnone : blocksAfter s = 0 := by omega
    refine ⟨BitVec.eq_of_toNat_eq hfeed, ?_⟩
    unfold blocksAfter at hnone
    omega
  all_goals omega

/-- A run at n + 1 SEQ steps from DONE gets there with the digest of (MSG, L), and changes nothing of the host's. -/
theorem run_to_done {n : Nat} {s : State} (h : RunInv s) (hnil : s.agenda = []) (hleft : seqStepsLeft s = n + 1) :
    ∃ u : State, Sys2Proof.core.run (n + 1) s = .next u ∧ u.phase = Phase.done ∧
      u.digest = coreDigest s.msg s.msgLen ∧ Frame [.hs, .wv, .blk, .w, .pos, .t, .phase, .draws] s u := by
  induction n generalizing s with
  | zero =>
    obtain ⟨hp, hle⟩ := last_step_is_feed h.control hleft
    have hm : Move s .seq (feedNext s) := .feed hp
    exact ⟨_, run_succ (step_of_seq_move hnil hm) 0, feedNext_phase_of_le hle, feedNext_digest h hp hle,
      seq_move_frame hm⟩
  | succ n ih =>
    have hb : s.busy = true := busy_of_seqStepsLeft (by omega)
    obtain ⟨v, hv, -⟩ := seqTurn_next s
    have hm := seqTurn_move hv
    have hframe := seq_move_frame hm
    have hless := seq_move_seqStepsLeft hm h.control hb
    have hagenda : v.agenda = [] := (move_agenda hm).trans hnil
    obtain ⟨u, hrun, hp, hdigest, hframe'⟩ := ih (move_runInv hm h) hagenda (by omega)
    obtain ⟨hmsg, -⟩ := hframe .msg (by decide)
    have hlen : v.msgLen = s.msgLen := hframe .msgLen (by decide)
    rw [hmsg, hlen] at hdigest
    exact ⟨u, (run_succ (step_of_seq_move hnil hm) (n + 1)).trans hrun, hp, hdigest, frame_trans hframe hframe'⟩

/-- Settles O48: INIT is 1 + 116 N steps from DONE, and there the run invariant asks nothing of the registers. -/
theorem runComputesTheCoreDigest : Obligations.RunComputesTheCoreDigest := by
  intro s hnil hp
  have hleft : seqStepsLeft s = 116 * numBlocks s.msgLen + 1 := by rw [seqStepsLeft_of_init hp, Nat.add_comm]
  obtain ⟨u, hrun, hdone, hdigest, hframe⟩ := run_to_done (runInv_of_outsideBlocks (.inr (.inl hp))) hnil hleft
  rw [Nat.add_comm] at hrun
  exact ⟨u, hrun, hdone, hdigest, hframe .reply (by decide), hframe .msg (by decide), hframe .msgLen (by decide)⟩

end Sys2Proof.Proofs

/-! # The sequencer and the host: PHASE by the table of R201, START and the reads, and the message the text front end makes

What one turn does to PHASE comes first, as case analyses of a `Move`; then the host's accesses one by one, and the octets of
MSG that a text puts in place. -/

namespace Sys2Proof.Proofs

open Sys2Proof Sys2Proof.Machine Sys2Proof.Safety

/-! ## The transition table (R201) -/

/-- Of all host accesses only a CTRL write with data[0] = 1, in IDLE or DONE, changes PHASE (R203, R206 to R210). -/
theorem hostTurn_phase {a : HostAccess} {s u : State} (h : hostTurn a s = .next u) :
    u.phase = if a.write = true ∧ a.reg = 0 ∧ a.data.getLsbD 0 = true ∧ (s.phase = Phase.idle ∨ s.phase = Phase.done)
      then Phase.init else s.phase := by
  by_cases hctrl : a.write = true ∧ a.reg = 0
  · obtain ⟨write, reg, data⟩ := a
    obtain ⟨rfl, rfl⟩ : write = true ∧ reg = 0 := hctrl
    rw [hostTurn_writeCtrl] at h
    cases h
    simp only [← accepts_iff, true_and, Bool.and_eq_true]
    split <;> rfl
  · rw [if_neg fun ⟨hw, hr, _⟩ => hctrl ⟨hw, hr⟩]
    cases hostTurn_move h with
    | hostStart _ _ hw hr => exact absurd ⟨hw, hr⟩ hctrl
    | hostNothing | hostLength | hostRead => rfl

/-- WEXP goes to CLOAD after T = 63 and stays otherwise. -/
theorem wexpNext_phase_cases (s : State) :
    (s.t.toNat ≠ 63 ∧ (wexpNext s).phase = Phase.wexp) ∨ (s.t.toNat = 63 ∧ (wexpNext s).phase = Phase.cload) := by
  by_cases h63 : s.t.toNat = 63
  · exact .inr ⟨h63, if_pos h63⟩
  · exact .inl ⟨h63, if_neg h63⟩

/-- ROUND goes to FEED after T = 63 and stays otherwise. -/
theorem roundNext_phase_cases (s : State) :
    (s.t.toNat ≠ 63 ∧ (roundNext s).phase = Phase.round) ∨ (s.t.toNat = 63 ∧ (roundNext s).phase = Phase.feed) := by
  by_cases h63 : s.t.toNat = 63
  · exact .inr ⟨h63, if_pos h63⟩
  · exact .inl ⟨h63, if_neg h63⟩

/-- FEED goes to PAD where message bits are left, and to DONE otherwise (R180). -/
theorem feedNext_phase_cases (s : State) :
    (s.pos.toNat < s.msgLen.toNat ∧ (feedNext s).phase = Phase.pad) ∨
      (s.msgLen.toNat ≤ s.pos.toNat ∧ (feedNext s).phase = Phase.done) := by
  by_cases hlt : s.pos.toNat < s.msgLen.toNat
  · exact .inl ⟨hlt, if_pos hlt⟩
  · exact .inr ⟨Nat.not_lt.mp hlt, if_neg hlt⟩

/-- Settles O43: SEQ's rows are its moves, one by one; the other turns have one row each. -/
theorem phaseChangesOnlyByTheTable : Obligations.PhaseChangesOnlyByTheTable := by
  intro s u hstep
  have hm := step_move hstep
  cases hturn : (takeTurn s).1 with
  | reset =>
    rw [hturn] at hm
    cases hm
    rfl
  | message octet value =>
    rw [hturn] at hm
    cases hm
    exact takeTurn_phase s
  | host a =>
    have hhost : hostTurn a (takeTurn s).2 = .next u := by rwa [step, hturn] at hstep
    simpa only [takeTurn_phase] using hostTurn_phase hhost
  | seq =>
    rw [hturn] at hm
    rw [← takeTurn_phase s, ← takeTurn_t s, ← takeTurn_pos s, ← takeTurn_msgLen s]
    generalize (takeTurn s).2 = taken at hm ⊢
    cases hm with
    | waits hp =>
      rcases hp with hp | hp | hp <;> simp [hp]
    | init hp | pad hp | wload hp | cload hp => simp [hp]
    | wexp hp => rcases wexpNext_phase_cases taken with ⟨hT, hnext⟩ | ⟨hT, hnext⟩ <;> simp [hp, hT, hnext]
    | round hp => rcases roundNext_phase_cases taken with ⟨hT, hnext⟩ | ⟨hT, hnext⟩ <;> simp [hp, hT, hnext]
    | feed hp => rcases feedNext_phase_cases taken with ⟨hT, hnext⟩ | ⟨hT, hnext⟩ <;> simp [hp, hT, hnext]

/-! ## A run from START to DONE (R203, R213, R214) -/

theorem busy_of_phase {s : State} {p : BitVec 4} (hp : s.phase = p) (hb : busyOf p = true) : s.busy = true := by
  rw [State.busy, hp, hb]

theorem isDone_of_phase {s : State} (hp : s.phase = Phase.done) : s.isDone = true := decide_eq_true hp

theorem isDone_eq_false_of_phase {s : State} (hp : s.phase ≠ Phase.done) : s.isDone = false := decide_eq_false hp

/-- SEQ waits only outside BUSY. -/
theorem busy_eq_false_of_waits {s : State} (hp : s.phase = Phase.idle ∨ s.phase = Phase.done ∨ 9 ≤ s.phase.toNat) :
    s.busy = false := by
  rw [Bool.eq_false_iff, ne_eq, busy_iff]
  rcases hp with hp | hp | hp
  · simp [hp]
  · simp [hp]
  · omega

/-- Every move but a reset takes a BUSY state to a BUSY one or to DONE. -/
theorem move_busy_or_isDone {s u : State} {turn : Turn} (hm : Move s turn u) (hb : s.busy = true)
    (hturn : turn ≠ .reset) : u.busy = true ∨ u.isDone = true := by
  cases hm with
  | waits hp => simp [busy_eq_false_of_waits hp] at hb
  | init | pad | wload | cload | hostStart => exact .inl rfl
  | wexp =>
    rcases wexpNext_phase_cases s with ⟨-, hnext⟩ | ⟨-, hnext⟩
    all_goals exact .inl (busy_of_phase hnext rfl)
  | round =>
    rcases roundNext_phase_cases s with ⟨-, hnext⟩ | ⟨-, hnext⟩
    all_goals exact .inl (busy_of_phase hnext rfl)
  | feed =>
    rcases feedNext_phase_cases s with ⟨-, hnext⟩ | ⟨-, hnext⟩
    · exact .inl (busy_of_phase hnext rfl)
    · exact .inr (isDone_of_phase hnext)
  | hostNothing | hostLength | hostRead | message => exact .inl hb
  | reset => exact absurd rfl hturn

theorem busyUntilDone : BusyUntilDone := fun s _ hb hstep hturn =>
  move_busy_or_isDone (step_move hstep) ((takeTurn_busy s).trans hb) hturn

/-- A host read and the taking of a turn touch no register of the core (logs 1, 4, 7). -/
theorem agenda_reply_draws_frame (s : State) (agenda : List Turn) (reply : Reply) (draws : Nat) :
    Frame [.agenda, .reply, .draws] s { s with agenda := agenda, reply := reply, draws := draws } := by
  intro f hf
  cases f with
  | agenda | reply | draws => simp at hf
  | msg => exact ⟨rfl, fun _ => rfl⟩
  | _ => rfl

theorem reply_draws_frame (s : State) (reply : Reply) (draws : Nat) :
    Frame [.reply, .draws] s { s with reply := reply, draws := draws } :=
  frame_erase (f := .agenda) (agenda_reply_draws_frame s s.agenda reply draws) rfl

theorem reply_frame (s : State) (reply : Reply) : Frame [.reply] s { s with reply := reply } :=
  frame_erase (f := .draws) (reply_draws_frame s reply s.draws) rfl

/-- While BUSY neither START nor WRLEN is accepted, and a read changes the reply and the draw counter alone (R214). -/
theorem host_move_of_busy {s u : State} {a : HostAccess} (hm : Move s (.host a) u) (hb : s.busy = true) :
    ∃ reply draws, u = { s with reply := reply, draws := draws } := by
  cases hm with
  | hostNothing => exact ⟨s.reply, s.draws, rfl⟩
  | hostStart _ ha | hostLength _ ha => simp [busy_eq_false_of_accepts ha] at hb
  | hostRead _ _ reply draws => exact ⟨reply, draws, rfl⟩

/-- Settles O44: the host's turn never stops, and its move in a BUSY state is a read at most. -/
theorem hostAccessWhileBusyKeepsTheRun : Obligations.HostAccessWhileBusyKeepsTheRun := by
  refine ⟨busyUntilDone, fun s a rest hb hagenda => ?_⟩
  obtain ⟨u, hu, -⟩ := hostTurn_next a { s with agenda := rest }
  obtain ⟨reply, draws, rfl⟩ := host_move_of_busy (hostTurn_move hu) hb
  exact ⟨_, (step_of_cons hagenda).trans hu, rfl, agenda_reply_draws_frame s rest reply draws⟩

/-! ## IDLE and DONE (R202, R205) -/

/-- STATUS has three values (R31). -/
theorem status_eq (s : State) : s.status = if s.busy then 1#32 else if s.isDone then 2#32 else 0#32 := by
  unfold State.status
  cases hb : s.busy with
  | false => cases s.isDone <;> rfl
  | true =>
    have hd : s.isDone = false := Bool.eq_false_iff.mpr fun hd => not_busy_and_isDone s ⟨hb, hd⟩
    rw [hd]
    rfl

theorem status_of_idle {s : State} (hp : s.phase = Phase.idle) : s.status = 0#32 :=
  (status_eq_zero_iff s).mpr ⟨busy_eq_false_of_waits (.inl hp), isDone_eq_false_of_phase (by simp [hp])⟩

theorem status_of_done {s : State} (hp : s.phase = Phase.done) : s.status = 2#32 := by
  rw [status_eq, busy_eq_false_of_waits (.inr (.inl hp)), isDone_of_phase hp]
  rfl

/-- In IDLE and DONE SEQ's turn changes nothing (log 13). -/
theorem step_of_seq_waits {s : State} (hp : s.phase = Phase.idle ∨ s.phase = Phase.done) (hseq : SeqMoves s) :
    step s = .next (takeTurn s).2 := by
  have hwaits : Move (takeTurn s).2 .seq (takeTurn s).2 :=
    .waits (by simpa only [takeTurn_phase] using hp.imp_right .inl)
  exact (step_of_seq hseq).trans (seqTurn_of_move hwaits)

/-- The turn is a host write of CTRL with data[0] = 1 (R203). -/
def StartTurn (turn : Turn) : Prop :=
  ∃ a : HostAccess, turn = .host a ∧ a.write = true ∧ a.reg = 0 ∧ a.data.getLsbD 0 = true

/-- In IDLE and DONE, PHASE and HS stay until a reset or a START, which leaves HS alone. -/
theorem move_of_accepts {s u : State} {turn : Turn} (hm : Move s turn u) (ha : s.accepts = true) :
    (u.phase = s.phase ∧ u.hs = s.hs) ∨ (turn = .reset ∧ u.phase = Phase.idle) ∨
      (u.phase = Phase.init ∧ u.hs = s.hs ∧ StartTurn turn) := by
  have hb := busy_eq_false_of_accepts ha
  cases hm with
  | waits | hostNothing | hostLength | hostRead | message => exact .inl ⟨rfl, rfl⟩
  | init hp | pad hp | wload hp | wexp hp | cload hp | round hp | feed hp =>
    simp [busy_of_phase hp rfl] at hb
  | hostStart a _ hw hr hd => exact .inr (.inr ⟨rfl, rfl, a, rfl, hw, hr, hd⟩)
  | reset => exact .inr (.inl ⟨rfl, rfl⟩)

/-- The same of a step: it is a move from the state with the turn taken, which has the same PHASE and HS. -/
theorem step_of_accepts {s u : State} (hstep : step s = .next u) (hp : s.phase = Phase.idle ∨ s.phase = Phase.done) :
    (u.phase = s.phase ∧ u.hs = s.hs) ∨ ((takeTurn s).1 = .reset ∧ u.phase = Phase.idle) ∨
      (u.phase = Phase.init ∧ u.hs = s.hs ∧ StartTurn (takeTurn s).1) := by
  have ha : (takeTurn s).2.accepts = true := (accepts_iff _).mpr (by rwa [takeTurn_phase])
  simpa only [takeTurn_phase, takeTurn_hs] using move_of_accepts (step_move hstep) ha

/-- Settles O18: of what a step can do in IDLE only START leads to another phase. -/
theorem idleWaitsForStart : Obligations.IdleWaitsForStart := by
  refine ⟨rfl, rfl, fun s => ⟨rfl, fun hp => ⟨status_of_idle hp, isDone_eq_false_of_phase (by simp [hp]),
    step_of_seq_waits (.inl hp), fun u hstep hne => ?_⟩⟩⟩
  rcases step_of_accepts hstep (.inl hp) with ⟨hsame, -⟩ | ⟨-, hidle⟩ | ⟨hinit, -, hstart⟩
  · exact absurd (hsame.trans hp) hne
  · exact absurd hidle hne
  · exact ⟨hinit, hstart⟩

/-- Settles O19: DIGEST is a view of HS, which stays in DONE. -/
theorem doneHoldsTheDigest : Obligations.DoneHoldsTheDigest := by
  refine ⟨rfl, fun s => ⟨rfl, fun hp => ⟨status_of_done hp, step_of_seq_waits (.inr hp), fun u hstep => ?_⟩⟩⟩
  rcases step_of_accepts hstep (.inr hp) with ⟨hsame, hhs⟩ | ⟨hreset, -⟩ | hstart
  · exact .inl ⟨hsame.trans hp, hhs, congrArg digestOf hhs⟩
  · exact .inr (.inl hreset)
  · exact .inr (.inr hstart)

/-! ## INIT (R204) -/

theorem init_frame (s : State) : Frame [.hs, .pos, .phase] s { s with hs := h0, pos := 0#64, phase := Phase.pad } := by
  intro f hf
  cases f with
  | hs | pos | phase => simp at hf
  | msg => exact ⟨rfl, fun _ => rfl⟩
  | _ => rfl

/-- Settles O9: the words written out are `h0`. -/
theorem initLoadsTheInitialHash : Obligations.InitLoadsTheInitialHash :=
  ⟨rfl, fun s => ⟨_, execInit_eq s, rfl, rfl, rfl, init_frame s⟩⟩

/-! ## START and WRLEN (R203, R206, R213) -/

theorem accepts_eq_false_of_ne {s : State} (hidle : s.phase ≠ Phase.idle) (hdone : s.phase ≠ Phase.done) :
    s.accepts = false := by
  rw [Bool.eq_false_iff, ne_eq, accepts_iff]
  exact not_or.mpr ⟨hidle, hdone⟩

theorem execStart_of_accepts {s : State} {data : BitVec 32} (hd : data.getLsbD 0 = true) (ha : s.accepts = true) :
    execStart data s = .next { s with phase := Phase.init } := by
  simp [execStart, hd, ha]

theorem execStart_of_not_accepts {s : State} (ha : s.accepts = false) (data : BitVec 32) :
    execStart data s = .next s := by
  simp [execStart, ha]

theorem execWrlen_of_accepts {s : State} (ha : s.accepts = true) (data : BitVec 64) :
    execWrlen data s = .next { s with msgLen := data } := by
  simp [execWrlen, ha]

theorem execWrlen_of_not_accepts {s : State} (ha : s.accepts = false) (data : BitVec 64) :
    execWrlen data s = .next s := by
  simp [execWrlen, ha]

theorem phase_frame (s : State) (p : BitVec 4) : Frame [.phase] s { s with phase := p } := by
  intro f hf
  cases f with
  | phase => simp at hf
  | msg => exact ⟨rfl, fun _ => rfl⟩
  | _ => rfl

theorem msgLen_frame (s : State) (len : BitVec 64) : Frame [.msgLen] s { s with msgLen := len } := by
  intro f hf
  cases f with
  | msgLen => simp at hf
  | msg => exact ⟨rfl, fun _ => rfl⟩
  | _ => rfl

theorem decodeAccess_start {data : BitVec 256} (hd : data.getLsbD 0 = true) :
    decodeAccess true 0 data = .ok (.start (data.setWidth 32)) := by
  rw [decodeAccess_of_lt true (by decide)]
  exact if_pos hd

/-- Settles O20: START by whether it is accepted, and then BUSY until DONE. -/
theorem startBeginsARunOrIsDropped : Obligations.StartBeginsARunOrIsDropped := by
  refine ⟨fun data hd => decodeAccess_start hd, busyUntilDone, fun s data hd => ⟨fun hp => ?_, fun hidle hdone => ?_⟩⟩
  · exact ⟨_, execStart_of_accepts hd ((accepts_iff s).mpr hp), rfl, rfl, rfl, phase_frame s Phase.init⟩
  · exact execStart_of_not_accepts (accepts_eq_false_of_ne hidle hdone) data

/-- Settles O21: WRLEN by whether it is accepted; DIGEST is a view of HS. -/
theorem wrlenStoresOrIsDropped : Obligations.WrlenStoresOrIsDropped := by
  refine ⟨fun _ => rfl, fun s data => ⟨fun hp => ?_, fun hidle hdone => ?_⟩⟩
  · exact ⟨_, execWrlen_of_accepts ((accepts_iff s).mpr hp) data, rfl, rfl, msgLen_frame s data⟩
  · exact execWrlen_of_not_accepts (accepts_eq_false_of_ne hidle hdone) data

/-! ## The reads (R207 to R209) -/

/-- Settles O22: only the reply changes. -/
theorem rdlenReturnsTheLength : Obligations.RdlenReturnsTheLength :=
  ⟨fun _ => rfl, fun s => ⟨_, rfl, rfl, reply_frame s (.length s.msgLen)⟩⟩

/-- Settles O23: the reply is STATUS, whose bits are BUSY and DONE. -/
theorem rdstatusReturnsBusyAndDone : Obligations.RdstatusReturnsBusyAndDone := by
  refine ⟨fun _ => rfl, fun s => ⟨_, s.status, rfl, rfl, ?_, status_getLsbD_one s,
    fun n hn => status_getLsbD_reserved s hn, ?_, reply_frame s (.word s.status)⟩⟩
  · rw [status_getLsbD_zero, Bool.eq_iff_iff, busy_iff, decide_eq_true_iff]
  · rw [status_eq]
    split
    · exact .inr (.inl rfl)
    · split
      · exact .inr (.inr rfl)
      · exact .inl rfl

theorem execRddigest_of_done {s : State} (hd : s.isDone = true) :
    execRddigest s = .next { s with reply := .digest s.digest } := by
  rw [execRddigest, if_pos hd]

theorem execRddigest_of_not_done {s : State} (hd : s.isDone = false) :
    execRddigest s = .next { s with reply := .digest (Config.freeDigest s.draws), draws := s.draws + 1 } := by
  rw [execRddigest, if_neg (ne_true_of_eq_false hd)]

/-- Settles O24: the reply is DIGEST, whose words are those of HS. -/
theorem rddigestReturnsTheHashState : Obligations.RddigestReturnsTheHashState :=
  ⟨fun _ => rfl, fun s hp => ⟨_, s.digest, execRddigest_of_done (isDone_of_phase hp), rfl, digestOf_extractLsb' s.hs,
    reply_frame s (.digest s.digest)⟩⟩

/-- Settles O25: outside DONE the reply is the free draw of the draw counter alone. -/
theorem earlyDigestReadShowsNothing : Obligations.EarlyDigestReadShowsNothing := by
  intro s hp
  refine ⟨_, Config.freeDigest s.draws, execRddigest_of_not_done (isDone_eq_false_of_phase hp), rfl, rfl,
    reply_draws_frame s _ _, fun s' hp' hdraws => ?_⟩
  exact ⟨_, execRddigest_of_not_done (isDone_eq_false_of_phase hp'), by rw [hdraws]⟩

/-! ## The text front end (R67, R91, R216) -/

/-- The octet of a code point, as a number. -/
theorem charOctet_toNat (u : Nat) : (charOctet u).toNat = if u < 128 then u else 0x3F := by
  unfold charOctet
  split
  · exact Nat.mod_eq_of_lt (by omega)
  · rfl

/-- The first bit of a character's octet is 0 (R91). -/
theorem charOctet_getLsbD_seven (u : Nat) : (charOctet u).getLsbD 7 = false := by
  have hlt : (charOctet u).toNat < 2 ^ 7 := by
    rw [charOctet_toNat]
    split <;> omega
  exact Nat.testBit_lt_two_pow hlt

theorem placeOctets_read_below {m : Memory} (h : m.wf = true) {a b : Nat} {vs : List Byte}
    (hfit : a + vs.length ≤ 2 ^ 61) (hb : b < a) : (placeOctets m a vs).read b = m.read b := by
  induction vs generalizing m a with
  | nil => rfl
  | cons v vs ih =>
    rw [List.length_cons] at hfit
    rw [placeOctets, ih (Memory.wf_write h (by omega) v) (by omega) (by omega), Memory.read_write h, if_neg (by omega)]

/-- Of the octets placed from `a` on the n-th is at a + n; past them MSG is as before. -/
theorem placeOctets_read_add {m : Memory} (h : m.wf = true) {a : Nat} {vs : List Byte}
    (hfit : a + vs.length ≤ 2 ^ 61) (n : Nat) :
    (placeOctets m a vs).read (a + n) = vs[n]?.getD (m.read (a + n)) := by
  induction vs generalizing m a n with
  | nil => rfl
  | cons v vs ih =>
    rw [List.length_cons] at hfit
    have hwf : (m.write a v).wf = true := Memory.wf_write h (by omega) v
    have hrest : a + 1 + vs.length ≤ 2 ^ 61 := by omega
    rw [placeOctets]
    cases n with
    | zero =>
      rw [placeOctets_read_below hwf hrest (by omega), Memory.read_write h]
      exact if_pos rfl
    | succ n =>
      rw [show a + (n + 1) = a + 1 + n by omega, ih hwf hrest, Memory.read_write h, if_neg (by omega)]
      rfl

/-- Octet n of the message is character n's, and 00 past the text (log 5). -/
theorem textMessage_read {text : List Nat} (hfit : 8 * text.length < 2 ^ 64) (n : Nat) :
    (textMessage text).read n = (text[n]?.map charOctet).getD unlistedOctet := by
  have hread := placeOctets_read_add (m := ⟨[]⟩) rfl (a := 0) (vs := text.map charOctet)
    (by rw [List.length_map]; omega) n
  rw [Nat.zero_add, List.getElem?_map] at hread
  exact hread

theorem textMessage_first_bit {text : List Nat} (hfit : 8 * text.length < 2 ^ 64) (n : Nat) :
    (textMessage text).bit (8 * n) = false := by
  rw [← Nat.add_zero (8 * n), bit_of_octet _ _ (by decide), textMessage_read hfit]
  cases text[n]? with
  | none => rfl
  | some u => exact charOctet_getLsbD_seven u

theorem textLength_toNat {text : List Nat} (hfit : 8 * text.length < 2 ^ 64) :
    (textLength text).toNat = 8 * text.length := Nat.mod_eq_of_lt hfit

/-- Settles O51, by the octets of the message. -/
theorem textFrontEndMakesTheMessage : Obligations.TextFrontEndMakesTheMessage := by
  intro text s hfit hmsg hlen
  have hL : s.msgLen.toNat = 8 * text.length := by rw [hlen, textLength_toNat hfit]
  refine ⟨hL, ⟨by omega, fun n => ?_⟩, fun n k hk u hu => ?_⟩
  · rw [hmsg, textMessage_first_bit hfit]
  · rw [hmsg, bit_of_octet _ _ hk, textMessage_read hfit, hu, ← charOctet_toNat]
    rfl

end Sys2Proof.Proofs

/-! # The exceptions: no step faults, a message turn while BUSY alone stops, and SEQ draws nothing in a run (R215, R230) -/

namespace Sys2Proof.Proofs

open Sys2Proof Sys2Proof.Machine Sys2Proof.Safety

/-- A step answers a next state, but for a message turn while BUSY, which is refused (R230; logs 6, 21). -/
theorem step_total (s : State) :
    (∃ u : State, step s = .next u) ∨
    (s.busy = true ∧ (∃ a v, (takeTurn s).1 = .message a v) ∧ step s = .refused .messageChangedWhileBusy) := by
  rw [← takeTurn_busy s]
  exact runTurn_total (takeTurn s).1 (takeTurn s).2

theorem step_ne_fault (s : State) (f : Fault) : step s ≠ .fault f := by
  rcases step_total s with ⟨u, hu⟩ | ⟨-, -, hrefused⟩
  · simp [hu]
  · simp [hrefused]

/-- Where R40 holds, POS and T stay in the ranges in which PAD, WEXP and ROUND have no free value to draw (R215). -/
theorem seq_move_draws {s u : State} (hm : Move s .seq u) (h : ControlInv s) : u.draws = s.draws := by
  cases hm with
  | waits | init | wload | cload => rfl
  | pad hp =>
    obtain ⟨-, hle, -⟩ := h.padPos hp
    exact padNext_draws_of_le hle
  | wexp hp =>
    obtain ⟨h16, -⟩ := h.wexpT hp
    exact wexpNext_draws_of_le h16
  | round hp => exact roundNext_draws_of_le (h.roundT hp)
  | feed => exact feedNext_draws s

theorem step_of_seqMoves {s : State} (hseq : SeqMoves s) :
    ∃ u : State, step s = .next u ∧ Move (takeTurn s).2 .seq u := by
  obtain ⟨u, hu, -⟩ := seqTurn_next (takeTurn s).2
  exact ⟨u, (step_of_seq hseq).trans hu, seqTurn_move hu⟩

/-- Settles O38: every turn is total but the message turn, and the control invariant keeps SEQ's moves clear of the draws. -/
theorem nothingStopsButAChangeOfMsg : Obligations.NothingStopsButAChangeOfMsg := by
  refine fun s => ⟨step_ne_fault s, step_total s, fun hseq => ?_⟩
  obtain ⟨u, hu, hm⟩ := step_of_seqMoves hseq
  exact ⟨u, hu, fun h => (seq_move_draws hm (takeTurn_controlInv h)).trans (takeTurn_draws s)⟩

end Sys2Proof.Proofs

/-! # Reset, and the fixed sequence of a run (R260, R261, R265, R267)

After a reset PHASE is IDLE and the core's other registers hold draws, which the draw counter alone decides. In a run
`seqStepsLeft` and R40 together say where in which block the core is, so the sequence of R267 is read off the count of steps
made. -/

namespace Sys2Proof.Proofs

open Sys2Proof Sys2Proof.Machine Sys2Proof.Safety

/-! ## Reset (R260, R261) -/

/-- With the same draws made, two states differ after a reset only in what is not the core's (log 15). -/
theorem applyReset_frame {s s' : State} (hdraws : s'.draws = s.draws) :
    Frame [.msg, .agenda, .reply] (applyReset s) (applyReset s') := by
  intro f hf
  cases f with
  | msg | agenda | reply => simp at hf
  | _ => simp [Field.same, hdraws]

/-- Settles O34: the step is `applyReset` of the state with the turn taken. -/
theorem resetForgetsTheCore : Obligations.ResetForgetsTheCore := by
  intro s rest hagenda
  exact ⟨_, step_of_cons hagenda, rfl, status_of_idle rfl, rfl, rfl, rfl, ⟨rfl, fun _ => rfl⟩, rfl,
    fun s' hagenda' hdraws => ⟨_, step_of_cons hagenda', applyReset_frame hdraws⟩⟩

/-! ## SEQ alone, step by step (R267) -/

/-- SEQ alone makes any number of the steps left, and each of them counts. -/
theorem run_seqStepsLeft {s : State} (h : ControlInv s) (hnil : s.agenda = []) {k : Nat} (hk : k ≤ seqStepsLeft s) :
    ∃ u : State, Sys2Proof.core.run k s = .next u ∧ ControlInv u ∧ u.msgLen = s.msgLen ∧
      seqStepsLeft s = seqStepsLeft u + k := by
  induction k generalizing s with
  | zero => exact ⟨s, rfl, h, rfl, rfl⟩
  | succ k ih =>
    have hb : s.busy = true := busy_of_seqStepsLeft (by omega)
    obtain ⟨v, hv, -⟩ := seqTurn_next s
    have hm := seqTurn_move hv
    have hless := seq_move_seqStepsLeft hm h hb
    obtain ⟨u, hrun, hc, hlen, hleft⟩ := ih (move_controlInv hm h) ((move_agenda hm).trans hnil) (by omega)
    have hvlen : v.msgLen = s.msgLen := seq_move_frame hm .msgLen (by decide)
    exact ⟨u, (run_succ (step_of_seq_move hnil hm) k).trans hrun, hc, hlen.trans hvlen, by omega⟩

/-! ## Where in a block the core is (R201, R267) -/

/-- PHASE after n steps of a block: PAD, WLOAD, 48 WEXP, CLOAD, 64 ROUND, FEED. -/
def phaseInBlock (n : Nat) : BitVec 4 :=
  if n = 0 then Phase.pad else if n = 1 then Phase.wload else if n < 50 then Phase.wexp
  else if n = 50 then Phase.cload else if n < 115 then Phase.round else Phase.feed

theorem phaseInBlock_of_wexp {n : Nat} (h2 : 2 ≤ n) (h50 : n < 50) : phaseInBlock n = Phase.wexp := by
  rw [phaseInBlock, if_neg (by omega), if_neg (by omega), if_pos h50]

theorem phaseInBlock_of_round {n : Nat} (h51 : 51 ≤ n) (h115 : n < 115) : phaseInBlock n = Phase.round := by
  rw [phaseInBlock, if_neg (by omega), if_neg (by omega), if_neg (by omega), if_neg (by omega), if_pos h115]

/-- The core has made n steps of block j: PHASE, POS at the PAD, and T where it counts. -/
structure AtBlockStep (s : State) (j n : Nat) : Prop where
  phase : s.phase = phaseInBlock n
  padPos : n = 0 → s.pos.toNat = 448 * j
  wexpT : 2 ≤ n → n < 50 → s.t.toNat = 14 + n
  roundT : 51 ≤ n → n < 115 → s.t.toNat = n - 51

/-- At a PAD with N - j blocks to do POS is 448 j (R143): by R40 it is a multiple of 448 short of L, or 0. -/
theorem pos_of_blocks_to_do {s : State} {j : Nat} (h : ControlInv s) (hp : s.phase = Phase.pad)
    (hblocks : max 1 (blocksAfter s) + j = numBlocks s.msgLen) : s.pos.toNat = 448 * j := by
  obtain ⟨⟨q, hq⟩, -, hshort⟩ := h.padPos hp
  unfold blocksAfter numBlocks at hblocks
  omega

/-- In a run the number of steps left says where the core is: the phases of a block are told apart by the remainder of
`seqStepsLeft` by 116, up to T in WEXP and ROUND. -/
theorem atBlockStep_of_seqStepsLeft {s : State} {j n : Nat} (h : ControlInv s) (hj : j < numBlocks s.msgLen)
    (hn : n < 116) (hleft : seqStepsLeft s + (116 * j + n) = 116 * numBlocks s.msgLen) : AtBlockStep s j n := by
  obtain ⟨u, hu, -⟩ := seqTurn_next s
  cases seqTurn_move hu with
  | waits hp =>
    have hnone := seqStepsLeft_of_not_busy (busy_eq_false_of_waits hp)
    omega
  | init hp =>
    rw [seqStepsLeft_of_init hp] at hleft
    omega
  | pad hp =>
    rw [seqStepsLeft_of_pad hp] at hleft
    obtain rfl : n = 0 := by omega
    exact ⟨hp, fun _ => pos_of_blocks_to_do h hp (by omega), by omega, by omega⟩
  | wload hp =>
    rw [seqStepsLeft_of_wload hp] at hleft
    obtain rfl : n = 1 := by omega
    exact ⟨hp, by omega, by omega, by omega⟩
  | wexp hp =>
    obtain ⟨h16, h63⟩ := h.wexpT hp
    rw [seqStepsLeft_of_wexp hp] at hleft
    have hT : 14 + n = s.t.toNat := by omega
    exact ⟨hp.trans (phaseInBlock_of_wexp (by omega) (by omega)).symm, by omega, by omega, by omega⟩
  | cload hp =>
    rw [seqStepsLeft_of_cload hp] at hleft
    obtain rfl : n = 50 := by omega
    exact ⟨hp, by omega, by omega, by omega⟩
  | round hp =>
    have h63 := h.roundT hp
    rw [seqStepsLeft_of_round hp] at hleft
    have hT : n = 51 + s.t.toNat := by omega
    exact ⟨hp.trans (phaseInBlock_of_round (by omega) (by omega)).symm, by omega, by omega, by omega⟩
  | feed hp =>
    rw [seqStepsLeft_of_feed hp] at hleft
    obtain rfl : n = 115 := by omega
    exact ⟨hp, by omega, by omega, by omega⟩

/-- Settles O49: n steps into block j, 116 (N - j) - n of the run's steps are left; where it ends is O48. -/
theorem runFollowsTheFixedSequence : Obligations.RunFollowsTheFixedSequence := by
  intro s hnil hp
  refine ⟨fun j n hj hn => ?_, ?_, rfl⟩
  · have hc : ControlInv s := controlInv_of_outsideBlocks (.inr (.inl hp))
    have hall := seqStepsLeft_of_init hp
    obtain ⟨u, hrun, huc, hlen, hleft⟩ := run_seqStepsLeft (k := 1 + 116 * j + n) hc hnil (by omega)
    rw [← hlen] at hj hall
    have hat : AtBlockStep u j n := atBlockStep_of_seqStepsLeft huc hj hn (by omega)
    exact ⟨u, hrun, busy_of_seqStepsLeft (by omega), hat.phase, hat.padPos, hat.wexpT, hat.roundT⟩
  · obtain ⟨u, hrun, hdone, -⟩ := runComputesTheCoreDigest s hnil hp
    exact ⟨u, hrun, hdone⟩

end Sys2Proof.Proofs
